-- ==== Sys2Proof/Word.lean ====
section
/-! DEFINITION. The word and byte types of the cpu-basic CORE and their plainest arithmetic. -/

namespace Sys2Proof

/-- "Word: the 16-bit unit of memory, instruction encoding, and register width" (R7, `XLEN` = 16). -/
abbrev Word := BitVec 16

/-- An 8-bit immediate or address field (R7, `IMMBITS` = 8); also one byte of an image file (R56). -/
abbrev Byte := BitVec 8

end Sys2Proof
end

