-- ==== Sys2Proof/Config.lean ====
section
/-! DEFINITION. What an implementation fixes: the sizes of R7 and the parameters of R8. -/

namespace Sys2Proof.Config

/-- `MEMWORDS`: words of RAM, addresses 0 to 255 (R7, R50). -/
def memWords : Nat := 256

/-- `LOAD_BASE`: the address of the first image word (R7, R60). -/
def loadBase : Nat := 0

/-- `RESET_PC`: the program counter after reset (R7, R42). -/
def resetPc : Word := 0

/-- `RESULT_ADDR`: the result cell the host reads after halt (R7, R61, R62). -/
def resultAddr : Nat := 0x64

/-- `FLAG_N_BIT`: the bit of register 5 holding the negative flag (R7, R23). -/
def flagNBit : Nat := 15

/-- `FLAG_Z_BIT`: the bit of register 5 holding the zero flag (R7, R23). -/
def flagZBit : Nat := 14

/-- `OOB_POLICY`: what an access at an address of 256 or more does (R8, R54). -/
inductive OobPolicy where
  /-- The access does not happen; an instruction fetch raises `FetchOutOfRange` (the spec's default, D7; log 4). -/
  | fault
  /-- The address is taken modulo 256 (UNVERIFIED: the spec offers it and says no source supports it; log 4). -/
  | wrap
  deriving DecidableEq, Repr

/-- The default of R8 and D7 (log 4). -/
def oobPolicy : OobPolicy := .fault

/-- `IMAGE_BYTE_ORDER`: the byte order of an image file, outside the CORE (R8, R56). -/
inductive ByteOrder where
  /-- The byte at offset `2i` is bits 7:0 of word `i` (the spec's default, D12; log 18). -/
  | little
  /-- The byte at offset `2i` is bits 15:8 of word `i` (DESIGN CHOICE: the other value of the parameter; log 18). -/
  | big
  deriving DecidableEq, Repr

/-- The default of R8 and D12 (log 18). -/
def imageByteOrder : ByteOrder := .little

/-- `COMMENT_CHAR`: the assembler's comment character, which no source names: OPEN (R8, D17; log 23). -/
opaque commentChar : Char

end Sys2Proof.Config
end

