-- ==== Sys2Proof/Machine/Flags.lean ====
section
/-! DEFINITION. The flags register: `N` at bit 15, `Z` at bit 14, and what a compare writes (R23, R116). -/

namespace Sys2Proof.Machine

open Sys2Proof

/-- `N`, bit 15 of the flags register (R12, R23). -/
def negFlag (flags : Word) : Bool := flags.getLsbD Config.flagNBit

/-- `Z`, bit 14 of the flags register (R12, R23). -/
def zeroFlag (flags : Word) : Bool := flags.getLsbD Config.flagZBit

/-- The flags register after a compare whose difference is `r`: `N <- r[15]`, `Z <- (r = 0)`, bits 13:0
unchanged (R116; that both flags are always written and the rest kept is D3, log 7). -/
def compareFlags (flags r : Word) : Word :=
  BitVec.ofBool (r.getLsbD 15) ++ BitVec.ofBool (r == 0) ++ flags.extractLsb' 0 14

end Sys2Proof.Machine
end

