-- ==== Sys2Proof/Machine/Alu.lean ====
section
/-! DEFINITION. The ALU: ten modes, a 16-bit result, and the flags that compare alone writes (R114 to
R117). It has no carry-in, carry-out, overflow output or shifter. -/

namespace Sys2Proof.Machine

open Sys2Proof

/-- The mode tags of R114. -/
inductive AluMode where
  | add | sub | cmp | inc | dec | and | or | xor | not | nop
  deriving DecidableEq, Repr

/-- The four modes that a state of the cycle selects (R114, R115). -/
def AluMode.exercised : AluMode → Bool
  | .add => true
  | .sub => false
  | .cmp => true
  | .inc => true
  | .dec => false
  | .and => false
  | .or => false
  | .xor => false
  | .not => false
  | .nop => true

/-- The result: `nop`, `inc`, `add`, `cmp` by R115 (wrap-around of `inc` and `add` is D15, log 11;
first minus second in `cmp` is D2, log 6); the six unexercised modes as R117 reads them (PRESUMED,
D14, log 12). A unary mode takes the first input. -/
def alu (m : AluMode) (a b : Word) : Word :=
  match m with
  | .add => a + b
  | .sub => a - b
  | .cmp => a - b
  | .inc => a + 1
  | .dec => a - 1
  | .and => a &&& b
  | .or => a ||| b
  | .xor => a ^^^ b
  | .not => ~~~a
  | .nop => a

/-- The flags register after an ALU pass: compare writes it, "all other modes are pure and flag-free"
(R114, R116). -/
def aluFlags (m : AluMode) (a b flags : Word) : Word :=
  match m with
  | .add => flags
  | .sub => flags
  | .cmp => compareFlags flags (alu .cmp a b)
  | .inc => flags
  | .dec => flags
  | .and => flags
  | .or => flags
  | .xor => flags
  | .not => flags
  | .nop => flags

end Sys2Proof.Machine
end

