-- ==== Sys2Proof/Syntax.lean ====
section
/-! DEFINITION. Registers, opcodes and instructions: one constructor of `Instr` per row of
`spec/opcode_table.json`. -/

namespace Sys2Proof

/-- The eight entries of the register file, in the order of their 3-bit index (R20 to R25). -/
inductive Reg where
  /-- Index 0, general purpose (R21). -/
  | r0
  /-- Index 1, general purpose (R21). -/
  | r1
  /-- Index 2, general purpose (R21). -/
  | r2
  /-- Index 3, general purpose (R21). -/
  | r3
  /-- Index 4: plain storage with no role and no name in the source (R22). -/
  | x4
  /-- Index 5: the flags register (R23). -/
  | flags
  /-- Index 6: the stack pointer, unused by every instruction (R24). -/
  | sp
  /-- Index 7: the program counter (R25). -/
  | pc
  deriving DecidableEq, Repr

/-- The sixteen tags of the 4-bit opcode field, in order; six carry no descriptor (R76, C1). -/
inductive Opcode where
  | mov | add | reserved2 | reserved3 | reserved4 | reserved5 | reserved6 | reserved7
  | ldl | ldh | cmp | je | jmp | ld | st | hlt
  deriving DecidableEq, Repr

/-- The cpu-basic instructions. A reserved opcode is an instruction here, because fetching one has an
effect the spec describes (R82, R185); it keeps bit 15 and bits 10:0, since the fault it raises
carries the whole word (log 3). -/
inductive Instr where
  /-- `mov ra, rb` (R140). -/
  | mov (ra rb : Reg)
  /-- `add ra, rb` (R141). -/
  | add (ra rb : Reg)
  /-- A word of reserved opcode 2 (R82). -/
  | reserved2 (top : BitVec 1) (low : BitVec 11)
  /-- A word of reserved opcode 3 (R82). -/
  | reserved3 (top : BitVec 1) (low : BitVec 11)
  /-- A word of reserved opcode 4 (R82). -/
  | reserved4 (top : BitVec 1) (low : BitVec 11)
  /-- A word of reserved opcode 5 (R82). -/
  | reserved5 (top : BitVec 1) (low : BitVec 11)
  /-- A word of reserved opcode 6 (R82). -/
  | reserved6 (top : BitVec 1) (low : BitVec 11)
  /-- A word of reserved opcode 7 (R82). -/
  | reserved7 (top : BitVec 1) (low : BitVec 11)
  /-- `ldl ra, imm` (R150). -/
  | ldl (ra : Reg) (imm : Byte)
  /-- `ldh ra, imm` (R151). -/
  | ldh (ra : Reg) (imm : Byte)
  /-- `cmp ra, rb` (R142). -/
  | cmp (ra rb : Reg)
  /-- `je addr` (R160). -/
  | je (addr : Byte)
  /-- `jmp addr` (R161). -/
  | jmp (addr : Byte)
  /-- `ld ra, addr` (R170). -/
  | ld (ra : Reg) (addr : Byte)
  /-- `st ra, addr` (R171). -/
  | st (ra : Reg) (addr : Byte)
  /-- `hlt` (R180). -/
  | hlt
  deriving DecidableEq, Repr

/-- The opcode tag of an instruction (R76). -/
def Instr.opcode : Instr → Opcode
  | .mov _ _ => .mov
  | .add _ _ => .add
  | .reserved2 _ _ => .reserved2
  | .reserved3 _ _ => .reserved3
  | .reserved4 _ _ => .reserved4
  | .reserved5 _ _ => .reserved5
  | .reserved6 _ _ => .reserved6
  | .reserved7 _ _ => .reserved7
  | .ldl _ _ => .ldl
  | .ldh _ _ => .ldh
  | .cmp _ _ => .cmp
  | .je _ => .je
  | .jmp _ => .jmp
  | .ld _ _ => .ld
  | .st _ _ => .st
  | .hlt => .hlt

/-- The instruction classes by which Decode chooses the next state and the A-bus source (R78). -/
inductive InstrClass where
  /-- `mov`, `add`, `cmp`: the second operand is a register value; Execute follows. -/
  | rr
  /-- `ld`, `st`: the second operand is an address; Fetch-Operand follows. -/
  | mem
  /-- `ldl`, `ldh`, `je`, `jmp`, `hlt`: nothing on the A-bus; Execute follows. -/
  | other
  /-- Opcodes 2 to 7: no descriptor, no next state (R76, R82). -/
  | reserved
  deriving DecidableEq, Repr

/-- The class of each opcode (R78; reserved opcodes have no descriptor, R76). -/
def Opcode.cls : Opcode → InstrClass
  | .mov => .rr
  | .add => .rr
  | .reserved2 => .reserved
  | .reserved3 => .reserved
  | .reserved4 => .reserved
  | .reserved5 => .reserved
  | .reserved6 => .reserved
  | .reserved7 => .reserved
  | .ldl => .other
  | .ldh => .other
  | .cmp => .rr
  | .je => .other
  | .jmp => .other
  | .ld => .mem
  | .st => .mem
  | .hlt => .other

/-- The arity column of R76; `none` is the "not found" of a descriptor lookup (C1). -/
def Opcode.arity? : Opcode → Option Nat
  | .mov => some 2
  | .add => some 2
  | .reserved2 => none
  | .reserved3 => none
  | .reserved4 => none
  | .reserved5 => none
  | .reserved6 => none
  | .reserved7 => none
  | .ldl => some 2
  | .ldh => some 2
  | .cmp => some 2
  | .je => some 1
  | .jmp => some 1
  | .ld => some 2
  | .st => some 2
  | .hlt => some 0

/-- The number of clock steps of one instruction, from Fetch-Address to the last step that changes
state (R113; `hlt` takes four by C2 and D10, log 14). -/
def Opcode.clockSteps : Opcode → Nat
  | .mov => 5
  | .add => 5
  | .reserved2 => 3
  | .reserved3 => 3
  | .reserved4 => 3
  | .reserved5 => 3
  | .reserved6 => 3
  | .reserved7 => 3
  | .ldl => 5
  | .ldh => 5
  | .cmp => 5
  | .je => 5
  | .jmp => 5
  | .ld => 6
  | .st => 6
  | .hlt => 4

end Sys2Proof
end

