-- ==== Sys2Proof/Decode.lean ====
section
/-! DEFINITION. Field extraction, the decoder (total on all 65536 words), the encoder, and the byte
layout of an image. -/

namespace Sys2Proof

/-! ### Fields (R72) -/

/-- `opc(w) = w[14:11]` (R72). -/
def opcField (w : Word) : BitVec 4 := w.extractLsb' 11 4

/-- `ra(w) = w[10:8]` (R72). -/
def raField (w : Word) : BitVec 3 := w.extractLsb' 8 3

/-- `rb(w) = w[7:5]` (R72). -/
def rbField (w : Word) : BitVec 3 := w.extractLsb' 5 3

/-- `imm8(w) = w[7:0]` (R72). -/
def imm8Field (w : Word) : Byte := w.extractLsb' 0 8

/-- Bit 15, unused by every instruction (R71, R83). -/
def topField (w : Word) : BitVec 1 := w.extractLsb' 15 1

/-- Bits 10:0, all the operand bits of a reserved opcode. -/
def lowField (w : Word) : BitVec 11 := w.extractLsb' 0 11

/-! ### Registers and opcodes -/

/-- The 3-bit index selects an entry with no check and no special case (R28). -/
def Reg.ofCode (c : BitVec 3) : Reg :=
  match c.toNat with
  | 0 => .r0
  | 1 => .r1
  | 2 => .r2
  | 3 => .r3
  | 4 => .x4
  | 5 => .flags
  | 6 => .sp
  | _ => .pc

/-- The register code of an entry (R20, R21). -/
def Reg.code : Reg → BitVec 3
  | .r0 => 0
  | .r1 => 1
  | .r2 => 2
  | .r3 => 3
  | .x4 => 4
  | .flags => 5
  | .sp => 6
  | .pc => 7

/-- The opcode map from the 4-bit field (R76). -/
def Opcode.ofField (o : BitVec 4) : Opcode :=
  match o.toNat with
  | 0 => .mov
  | 1 => .add
  | 2 => .reserved2
  | 3 => .reserved3
  | 4 => .reserved4
  | 5 => .reserved5
  | 6 => .reserved6
  | 7 => .reserved7
  | 8 => .ldl
  | 9 => .ldh
  | 10 => .cmp
  | 11 => .je
  | 12 => .jmp
  | 13 => .ld
  | 14 => .st
  | _ => .hlt

/-- The opcode column of R76. -/
def Opcode.field : Opcode → BitVec 4
  | .mov => 0
  | .add => 1
  | .reserved2 => 2
  | .reserved3 => 3
  | .reserved4 => 4
  | .reserved5 => 5
  | .reserved6 => 6
  | .reserved7 => 7
  | .ldl => 8
  | .ldh => 9
  | .cmp => 10
  | .je => 11
  | .jmp => 12
  | .ld => 13
  | .st => 14
  | .hlt => 15

/-- The bits no decoder reads: bit 15 of every word, bits 4:0 of format RR, bits 10:8 of format J, bits
10:0 of format N (R83). A reserved opcode has none to ignore: its fault carries the whole word. -/
def Opcode.unusedMask : Opcode → Word
  | .mov => 0x801F
  | .add => 0x801F
  | .reserved2 => 0
  | .reserved3 => 0
  | .reserved4 => 0
  | .reserved5 => 0
  | .reserved6 => 0
  | .reserved7 => 0
  | .ldl => 0x8000
  | .ldh => 0x8000
  | .cmp => 0x801F
  | .je => 0x8700
  | .jmp => 0x8700
  | .ld => 0x8000
  | .st => 0x8000
  | .hlt => 0x87FF

/-! ### The decoder -/

/-- The decode function of R77: `w[14:11]` alone chooses the instruction, then its operand fields are
extracted; unused bits are ignored (R83, the spec's decision D4, log 8). The words R77 calls
`DecodeFailure(w)` decode to the reserved instructions, whose meaning raises that fault (log 3). -/
def decode (w : Word) : Instr :=
  match Opcode.ofField (opcField w) with
  | .mov => .mov (Reg.ofCode (raField w)) (Reg.ofCode (rbField w))
  | .add => .add (Reg.ofCode (raField w)) (Reg.ofCode (rbField w))
  | .reserved2 => .reserved2 (topField w) (lowField w)
  | .reserved3 => .reserved3 (topField w) (lowField w)
  | .reserved4 => .reserved4 (topField w) (lowField w)
  | .reserved5 => .reserved5 (topField w) (lowField w)
  | .reserved6 => .reserved6 (topField w) (lowField w)
  | .reserved7 => .reserved7 (topField w) (lowField w)
  | .ldl => .ldl (Reg.ofCode (raField w)) (imm8Field w)
  | .ldh => .ldh (Reg.ofCode (raField w)) (imm8Field w)
  | .cmp => .cmp (Reg.ofCode (raField w)) (Reg.ofCode (rbField w))
  | .je => .je (imm8Field w)
  | .jmp => .jmp (imm8Field w)
  | .ld => .ld (Reg.ofCode (raField w)) (imm8Field w)
  | .st => .st (Reg.ofCode (raField w)) (imm8Field w)
  | .hlt => .hlt

/-! ### The encoder -/

/-- Format RR: 0, opcode, `ra`, `rb`, five zero bits (R73, R95). -/
def encodeRR (o : Opcode) (ra rb : Reg) : Word := 0#1 ++ o.field ++ ra.code ++ rb.code ++ 0#5

/-- Format RI: 0, opcode, `ra`, `imm8` (R74, R95). -/
def encodeRI (o : Opcode) (ra : Reg) (imm : Byte) : Word := 0#1 ++ o.field ++ ra.code ++ imm

/-- Format J: 0, opcode, three zero bits, `imm8` (R75, R95). -/
def encodeJ (o : Opcode) (addr : Byte) : Word := 0#1 ++ o.field ++ 0#3 ++ addr

/-- Format N: 0, opcode, eleven zero bits (R75, R95). -/
def encodeN (o : Opcode) : Word := 0#1 ++ o.field ++ 0#11

/-- A reserved word: bit 15, opcode, bits 10:0, all as they were (R82). -/
def encodeReserved (o : Opcode) (top : BitVec 1) (low : BitVec 11) : Word := top ++ o.field ++ low

/-- The encoding function (R95); every unused bit is 0. -/
def encode : Instr → Word
  | .mov ra rb => encodeRR .mov ra rb
  | .add ra rb => encodeRR .add ra rb
  | .reserved2 top low => encodeReserved .reserved2 top low
  | .reserved3 top low => encodeReserved .reserved3 top low
  | .reserved4 top low => encodeReserved .reserved4 top low
  | .reserved5 top low => encodeReserved .reserved5 top low
  | .reserved6 top low => encodeReserved .reserved6 top low
  | .reserved7 top low => encodeReserved .reserved7 top low
  | .ldl ra imm => encodeRI .ldl ra imm
  | .ldh ra imm => encodeRI .ldh ra imm
  | .cmp ra rb => encodeRR .cmp ra rb
  | .je addr => encodeJ .je addr
  | .jmp addr => encodeJ .jmp addr
  | .ld ra addr => encodeRI .ld ra addr
  | .st ra addr => encodeRI .st ra addr
  | .hlt => encodeN .hlt

/-! ### Words and bytes of an image (outside the CORE, R56) -/

/-- The word of two image bytes, first and second in the file (R56, log 18). -/
def wordOfBytes : Config.ByteOrder → Byte → Byte → Word
  | .little, first, second => second ++ first
  | .big, first, second => first ++ second

/-- The two image bytes of a word, first and second in the file (R56, log 18). -/
def bytesOfWord (order : Config.ByteOrder) (w : Word) : Byte × Byte :=
  match order with
  | .little => (w.extractLsb' 0 8, w.extractLsb' 8 8)
  | .big => (w.extractLsb' 8 8, w.extractLsb' 0 8)

/-- Why a byte string holds no instruction. No word is refused: R77 is total. -/
inductive DecodeRefusal where
  /-- Fewer than the two bytes of one instruction word (R70). -/
  | truncated
  deriving DecidableEq, Repr

/-- The next instruction of a byte string in image order, and the bytes after it (R56, R70). -/
def decodeBytes : List Byte → Except DecodeRefusal (Instr × List Byte)
  | first :: second :: rest => .ok (decode (wordOfBytes Config.imageByteOrder first second), rest)
  | _ => .error .truncated

/-- The bytes of one instruction in image order (R56, R70). -/
def encodeBytes (i : Instr) : List Byte :=
  let b := bytesOfWord Config.imageByteOrder (encode i)
  [b.1, b.2]

/-- The table's word, its bits above `nbits` zero, laid out as two image bytes and decoded (log 26). -/
def decodeTableWord (nbits w : Nat) : Option Instr :=
  let b := bytesOfWord Config.imageByteOrder (BitVec.ofNat 16 (w % 2 ^ nbits))
  match decodeBytes [b.1, b.2] with
  | .ok (i, _) => some i
  | .error _ => none

end Sys2Proof
end

