-- ==== Sys2Proof/Machine/Operands.lean ====
section
/-! DEFINITION. How operand values are formed from instruction fields (R81), and which register an
instruction's Write-Back selects (R80). -/

namespace Sys2Proof.Machine

open Sys2Proof

/-- `zext_16(imm8)`: the immediate of `ldl`, the address of `ld` and `st`, the target of `je` and `jmp`
(R11, R81; DEDUCED from "raw" and "unchanged", log 25). -/
def zext16 (imm : Byte) : Word := imm.setWidth 16

/-- `zext_16(imm8) << 8`: the immediate of `ldh` (R81, R151). -/
def immHigh (imm : Byte) : Word := zext16 imm <<< 8

/-- The destination select: 7 for `je` and `jmp`, `ra` for `mov`, `add`, `ldl`, `ldh`, `ld`; `cmp`, `st`
and `hlt` write no register, and a reserved opcode never reaches Write-Back (R80, R103). -/
def dest : Instr → Option Reg
  | .mov ra _ => some ra
  | .add ra _ => some ra
  | .reserved2 _ _ => none
  | .reserved3 _ _ => none
  | .reserved4 _ _ => none
  | .reserved5 _ _ => none
  | .reserved6 _ _ => none
  | .reserved7 _ _ => none
  | .ldl ra _ => some ra
  | .ldh ra _ => some ra
  | .cmp _ _ => none
  | .je _ => some .pc
  | .jmp _ => some .pc
  | .ld ra _ => some ra
  | .st _ _ => none
  | .hlt => none

/-- The data address an instruction presents: `zext_16(imm8)` of `ld` and `st` (R59, R172). -/
def dataAddr : Instr → Option Word
  | .mov _ _ => none
  | .add _ _ => none
  | .reserved2 _ _ => none
  | .reserved3 _ _ => none
  | .reserved4 _ _ => none
  | .reserved5 _ _ => none
  | .reserved6 _ _ => none
  | .reserved7 _ _ => none
  | .ldl _ _ => none
  | .ldh _ _ => none
  | .cmp _ _ => none
  | .je _ => none
  | .jmp _ => none
  | .ld _ addr => some (zext16 addr)
  | .st _ addr => some (zext16 addr)
  | .hlt => none

end Sys2Proof.Machine
end

