-- ==== Sys2Proof/Machine/State.lean ====
section
/-! DEFINITION. The state of the CORE as plain data, the reasons a step can stop, and the state after
reset. The whole state is the record `(x[0..7], T, IR, MAR, MDR, phase, status, Mem[0..255])` (R39). -/

namespace Sys2Proof.Machine

open Sys2Proof

/-- The register file: eight 16-bit entries (R20). -/
structure RegFile where
  /-- Entry 0 (R21). -/
  r0 : Word
  /-- Entry 1 (R21). -/
  r1 : Word
  /-- Entry 2 (R21). -/
  r2 : Word
  /-- Entry 3 (R21). -/
  r3 : Word
  /-- Entry 4, no assigned function (R22). -/
  x4 : Word
  /-- Entry 5: `N` at bit 15, `Z` at bit 14 (R23). -/
  flags : Word
  /-- Entry 6: the stack pointer (R24). -/
  sp : Word
  /-- Entry 7: the program counter, a word address (R25). -/
  pc : Word
  deriving DecidableEq, Repr

/-- The six states of the cycle (R34, R100). -/
inductive Phase where
  /-- Fetch-Address (R101). -/
  | fa
  /-- Fetch-Word (R102). -/
  | fw
  /-- Decode (R103 to R105). -/
  | dec
  /-- Fetch-Operand (R106). -/
  | fo
  /-- Execute (R107). -/
  | exe
  /-- Write-Back (R110, R111). -/
  | wb
  deriving DecidableEq, Repr

/-- The two faults of the machine itself (R14, R187). They live in the run status: the machine has no
trap entry, and the state a fault leaves is described by the spec (log 2). -/
inductive CoreFault where
  /-- Decode found an opcode of 2 to 7; carries the whole word (R185). -/
  | decodeFailure (word : Word)
  /-- Fetch-Word found an address of 256 or more; carries the address (R186, log 4). -/
  | fetchOutOfRange (addr : Word)
  deriving DecidableEq, Repr

/-- The run status (R35). -/
inductive RunStatus where
  | running
  | halted
  | faulted (f : CoreFault)
  deriving DecidableEq, Repr

/-- Word-addressed memory: (address, word) pairs in rising order of address, none of value 0; an
unlisted address reads as 0, the reset value of R42 (log 16). -/
abbrev Memory := List (Nat × Word)

/-- The state of the CORE (R39). -/
structure State where
  /-- The register file `x[0..7]` (R20). -/
  regs : RegFile
  /-- The result latch `T` (R30). -/
  t : Word
  /-- The instruction register `IR` (R31). -/
  ir : Word
  /-- The memory-address register `MAR` (R32). -/
  mar : Word
  /-- The memory-data register `MDR` (R33). -/
  mdr : Word
  /-- The state of the cycle (R34). -/
  phase : Phase
  /-- The run status (R35). -/
  status : RunStatus
  /-- The RAM (R38, R50). -/
  mem : Memory
  deriving DecidableEq, Repr

/-- The reasons a step can stop without a next state. All are raised only from states that no run
reaches: the faults a run can meet are next states whose `status` is `faulted` (logs 2 and 17). -/
inductive Fault where
  /-- A data access at an address that does not exist, 256 or more, under `OOB_POLICY = fault`. Raised by
  the Fetch-Operand step of `ld` and the Write-Back step of `st` from a state whose latch holds such
  an address; no instruction can present one (R54, R172). Safe: the model stops where R54 forbids a
  value. -/
  | dataOutOfRange (addr : Word)
  /-- A cycle state that the instruction in `IR` never visits: Fetch-Operand without `ld` or `st` (R106),
  Execute of a reserved opcode (R103), Write-Back of `hlt` or of a reserved opcode (R109, R111).
  Raised by `tick` from a state that no transition of R100 leads to. Safe: the model stops. -/
  | phaseUnvisited (phase : Phase) (word : Word)
  deriving DecidableEq, Repr

/-- Why a step refuses an instruction. No instruction is refused. -/
inductive Refusal where
  /-- The instruction has no meaning in the model. Raised by an arm of `exec` without a meaning; there is
  none. Safe: the model stops. -/
  | notModelled (mnemonic : String)
  deriving DecidableEq, Repr

/-- The register file after reset: "zero-initialized" (R42). -/
def RegFile.reset : RegFile :=
  { r0 := 0, r1 := 0, r2 := 0, r3 := 0, x4 := 0, flags := 0, sp := 0, pc := Config.resetPc }

/-- The machine after reset, before any image is placed: every value of R42, the phase and status by
the spec's decision D8 (log 13). -/
def State.reset : State :=
  { regs := RegFile.reset, t := 0, ir := 0, mar := 0, mdr := 0,
    phase := .fa, status := .running, mem := [] }

end Sys2Proof.Machine
end

