-- ==== Sys2Proof/Machine/Ops.lean ====
section
/-! DEFINITION. The named operations over memory, registers and latches that every instruction and every
clock step is made of, and the two ways a run ends: a fault and a halt. -/

namespace Sys2Proof.Machine

open Sys2Proof

/-! ### Memory (R50 to R54) -/

/-- The word at an address; an address with no entry holds the reset value 0 (R42, R52). -/
def Memory.readWord : Memory → Nat → Word
  | [], _ => 0
  | (b, v) :: m, a => if a = b then v else Memory.readWord m a

/-- The memory without any entry for an address. -/
def Memory.clearWord (m : Memory) (a : Nat) : Memory := m.filter (fun c => c.1 != a)

/-- An entry put in its place by address. -/
def Memory.placeWord : Memory → Nat → Word → Memory
  | [], a, v => [(a, v)]
  | (b, u) :: m, a, v => if a < b then (a, v) :: (b, u) :: m else (b, u) :: Memory.placeWord m a v

/-- The memory after all 16 bits of one word are replaced (R53); no entry of value 0 is kept. -/
def Memory.writeWord (m : Memory) (a : Nat) (v : Word) : Memory :=
  if v = 0 then m.clearWord a else (m.clearWord a).placeWord a v

/-- Every address is at least `lo`, below 256 and above the one before, and no entry is 0. -/
def Memory.wfFrom (lo : Nat) : Memory → Bool
  | [] => true
  | (a, v) :: m => decide (lo ≤ a) && decide (a < Config.memWords) && v != 0 && Memory.wfFrom (a + 1) m

/-- The canonical form of memory (log 16): equal contents are equal data. -/
def Memory.wf (m : Memory) : Bool := Memory.wfFrom 0 m

/-- The memory word that a 16-bit address names, if any (R54): an address of 256 or more names none under
`OOB_POLICY = fault` and word `addr mod 256` under `wrap` (D7, log 4). -/
def resolveAddr (p : Config.OobPolicy) (addr : Word) : Option Nat :=
  if addr.toNat < Config.memWords then some addr.toNat
  else
    match p with
    | .fault => none
    | .wrap => some (addr.toNat % Config.memWords)

/-- `MemRead(addr, 1)` (R52). -/
def memRead (p : Config.OobPolicy) (m : Memory) (addr : Word) : Option Word :=
  (resolveAddr p addr).map m.readWord

/-- `MemWrite(addr, 1, v)` (R53). -/
def memWrite (p : Config.OobPolicy) (m : Memory) (addr v : Word) : Option Memory :=
  (resolveAddr p addr).map (fun a => m.writeWord a v)

/-! ### Registers (R12, R20, R28) -/

/-- `x[i]` (R12). -/
def RegFile.read (f : RegFile) : Reg → Word
  | .r0 => f.r0
  | .r1 => f.r1
  | .r2 => f.r2
  | .r3 => f.r3
  | .x4 => f.x4
  | .flags => f.flags
  | .sp => f.sp
  | .pc => f.pc

/-- `x[i] <- v`; no write is discarded (R12, R20). -/
def RegFile.write (f : RegFile) (r : Reg) (v : Word) : RegFile :=
  match r with
  | .r0 => { f with r0 := v }
  | .r1 => { f with r1 := v }
  | .r2 => { f with r2 := v }
  | .r3 => { f with r3 := v }
  | .x4 => { f with x4 := v }
  | .flags => { f with flags := v }
  | .sp => { f with sp := v }
  | .pc => { f with pc := v }

/-- `x[i]` of a state (R12). -/
def State.readReg (s : State) (r : Reg) : Word := s.regs.read r

/-- `x[i] <- v` of a state (R12). -/
def State.writeReg (s : State) (r : Reg) (v : Word) : State := { s with regs := s.regs.write r v }

/-- The program counter `x[7]` (R12, R25). -/
def State.pc (s : State) : Word := s.regs.pc

/-- `Z` of a state (R12). -/
def State.z (s : State) : Bool := zeroFlag s.regs.flags

/-- `N` of a state (R12). -/
def State.n (s : State) : Bool := negFlag s.regs.flags

/-! ### Latches and the ALU pass -/

/-- One ALU pass: the result goes to the latch `T`, and compare writes the flags (R30, R114, R116). -/
def State.runAlu (m : AluMode) (a b : Word) (s : State) : State :=
  { s with t := alu m a b, regs := s.regs.write .flags (aluFlags m a b s.regs.flags) }

/-- `MAR <- v` (R32). -/
def State.setMar (s : State) (v : Word) : State := { s with mar := v }

/-- `MDR <- v` (R33). -/
def State.setMdr (s : State) (v : Word) : State := { s with mdr := v }

/-- `IR <- v` (R31). -/
def State.setIr (s : State) (v : Word) : State := { s with ir := v }

/-- The memory replaced by the outcome of a write (R53). -/
def State.setMem (s : State) (m : Memory) : State := { s with mem := m }

/-- The cycle moves to a state (R100). -/
def State.toPhase (s : State) (ph : Phase) : State := { s with phase := ph }

/-- The commit of the incremented program counter, `x[7] <- (a + 1) mod 2^16` (R27, R120; wrap-around is
D15, log 11). -/
def State.commitPc (s : State) : State := s.writeReg .pc (alu .inc s.pc 0)

/-- A word placed in memory at an address that exists (R53, R60). -/
def State.placeWord (s : State) (a : Nat) (v : Word) : State := { s with mem := s.mem.writeWord a v }

/-! ### The two ends of a run

There is no trap entry and no return from one: a fault saves nothing, changes no mode and goes to no
handler (R192, R193). Taking a fault is one operation, and nothing undoes it. -/

/-- `raise <Fault>(info)`: the run status becomes faulted and nothing else changes (R14, R192). -/
def State.raise (s : State) (f : CoreFault) : State := { s with status := .faulted f }

/-- `halt`: the run status becomes halted and nothing else changes (R14, R109). -/
def State.halt (s : State) : State := { s with status := .halted }

/-- A decode failure, raised in Decode before the program counter is committed; the cycle stays in
Decode (R100, R103, R185; D9, log 2). -/
def State.decodeFailure (s : State) (w : Word) : State := (s.toPhase .dec).raise (.decodeFailure w)

end Sys2Proof.Machine
end

