-- ==== Sys2Proof/Machine/Halt.lean ====
section
/-! DEFINITION. `hlt` (45_halt.md): the only good end of a run. -/

namespace Sys2Proof.Machine

open Sys2Proof Host

/-- `hlt`: the program counter is committed, then the status becomes halted in Execute; there is no
Write-Back and the cycle stays in Execute (R109, R180; C2 and D10, log 14). -/
def execHlt (s : State) : Outcome State Fault Refusal :=
  .next (s.commitPc.toPhase .exe).halt

end Sys2Proof.Machine
end

