-- ==== Sys2Proof/Machine/ImmediateLoad.lean ====
section
/-! DEFINITION. `ldl` and `ldh` (42_immediate_load.md): Write-Back ORs the result into the destination. -/

namespace Sys2Proof.Machine

open Sys2Proof Host

/-- `ldl ra, imm`: `x[ra] <- x[ra] | zext_16(imm8)` (R150). -/
def execLdl (ra : Reg) (imm : Byte) (s : State) : Outcome State Fault Refusal :=
  let s2 := s.commitPc.runAlu .nop (zext16 imm) 0
  .next ((s2.writeReg ra (s2.readReg ra ||| s2.t)).toPhase .fa)

/-- `ldh ra, imm`: `x[ra] <- x[ra] | (zext_16(imm8) << 8)` (R151). -/
def execLdh (ra : Reg) (imm : Byte) (s : State) : Outcome State Fault Refusal :=
  let s2 := s.commitPc.runAlu .nop (immHigh imm) 0
  .next ((s2.writeReg ra (s2.readReg ra ||| s2.t)).toPhase .fa)

end Sys2Proof.Machine
end

