-- ==== Sys2Proof/Machine/Jumps.lean ====
section
/-! DEFINITION. `je` and `jmp` (43_jumps.md): absolute targets, no delay slot, no link register. -/

namespace Sys2Proof.Machine

open Sys2Proof Host

/-- `je addr`: `x[7] <- zext_16(imm8)` if `Z = 1`, else the incremented counter stands (R160). -/
def execJe (addr : Byte) (s : State) : Outcome State Fault Refusal :=
  let s2 := s.commitPc.runAlu .nop (zext16 addr) 0
  .next ((if s2.z then s2.writeReg .pc s2.t else s2).toPhase .fa)

/-- `jmp addr`: `x[7] <- zext_16(imm8)` (R161). -/
def execJmp (addr : Byte) (s : State) : Outcome State Fault Refusal :=
  let s2 := s.commitPc.runAlu .nop (zext16 addr) 0
  .next ((s2.writeReg .pc s2.t).toPhase .fa)

end Sys2Proof.Machine
end

