-- ==== Sys2Proof/Machine/LoadStore.lean ====
section
/-! DEFINITION. `ld` and `st` (44_load_store.md): one whole word at an absolute address that always
exists, so the fault branches below are never taken (R172, log 17). -/

namespace Sys2Proof.Machine

open Sys2Proof Host

/-- `ld ra, addr`: `x[ra] <- MemRead(zext_16(imm8), 1)` (R170); `MAR` and `MDR` hold the address and the
word (R106, R121). -/
def execLd (ra : Reg) (addr : Byte) (s : State) : Outcome State Fault Refusal :=
  let s1 := s.commitPc
  match memRead Config.oobPolicy s1.mem (zext16 addr) with
  | none => .fault (.dataOutOfRange (zext16 addr))
  | some v =>
    let s2 := ((s1.setMar (zext16 addr)).setMdr v).runAlu .nop v 0
    .next ((s2.writeReg ra s2.t).toPhase .fa)

/-- `st ra, addr`: `MemWrite(zext_16(imm8), 1, x[ra])` (R171); `MAR` holds the address and `MDR` keeps
the instruction word (R33, R121). -/
def execSt (ra : Reg) (addr : Byte) (s : State) : Outcome State Fault Refusal :=
  let s1 := s.commitPc
  let s2 := (s1.setMar (zext16 addr)).runAlu .nop (s1.readReg ra) 0
  match memWrite Config.oobPolicy s2.mem (zext16 addr) s2.t with
  | none => .fault (.dataOutOfRange (zext16 addr))
  | some m => .next ((s2.setMem m).toPhase .fa)

end Sys2Proof.Machine
end

