-- ==== Sys2Proof/Machine/RegisterRegister.lean ====
section
/-! DEFINITION. `mov`, `add`, `cmp` (41_register_register.md). As every meaning, each takes the state
with the word fetched and the program counter still at the instruction's address, and gives the
state at the next instruction boundary (R120), latches included (R121, log 15). -/

namespace Sys2Proof.Machine

open Sys2Proof Host

/-- `mov ra, rb`: `x[ra] <- x[rb]` (R140; its Execute line is the spec's decision D1, log 5). -/
def execMov (ra rb : Reg) (s : State) : Outcome State Fault Refusal :=
  let s1 := s.commitPc
  let s2 := s1.runAlu .nop (s1.readReg rb) 0
  .next ((s2.writeReg ra s2.t).toPhase .fa)

/-- `add ra, rb`: `x[ra] <- (x[ra] + x[rb]) mod 2^16`, no flag (R141). -/
def execAdd (ra rb : Reg) (s : State) : Outcome State Fault Refusal :=
  let s1 := s.commitPc
  let s2 := s1.runAlu .add (s1.readReg ra) (s1.readReg rb)
  .next ((s2.writeReg ra s2.t).toPhase .fa)

/-- `cmp ra, rb`: `N` and `Z` from `(x[ra] - x[rb]) mod 2^16`; "compare commits nothing" (R142; the
direction is D2, log 6). -/
def execCmp (ra rb : Reg) (s : State) : Outcome State Fault Refusal :=
  let s1 := s.commitPc
  .next ((s1.runAlu .cmp (s1.readReg ra) (s1.readReg rb)).toPhase .fa)

end Sys2Proof.Machine
end

