-- ==== Sys2Proof/Machine/Reserved.lean ====
section
/-! DEFINITION. The six reserved opcodes: each raises `DecodeFailure(word)` with its whole word (R82,
R185). The program counter is not incremented and no register or memory word changes (D9, log 2). -/

namespace Sys2Proof.Machine

open Sys2Proof Host

/-- A word of reserved opcode 2 raises `DecodeFailure` (R82). -/
def execReserved2 (top : BitVec 1) (low : BitVec 11) (s : State) : Outcome State Fault Refusal :=
  .next (s.decodeFailure (encodeReserved .reserved2 top low))

/-- A word of reserved opcode 3 raises `DecodeFailure` (R82). -/
def execReserved3 (top : BitVec 1) (low : BitVec 11) (s : State) : Outcome State Fault Refusal :=
  .next (s.decodeFailure (encodeReserved .reserved3 top low))

/-- A word of reserved opcode 4 raises `DecodeFailure` (R82). -/
def execReserved4 (top : BitVec 1) (low : BitVec 11) (s : State) : Outcome State Fault Refusal :=
  .next (s.decodeFailure (encodeReserved .reserved4 top low))

/-- A word of reserved opcode 5 raises `DecodeFailure` (R82). -/
def execReserved5 (top : BitVec 1) (low : BitVec 11) (s : State) : Outcome State Fault Refusal :=
  .next (s.decodeFailure (encodeReserved .reserved5 top low))

/-- A word of reserved opcode 6 raises `DecodeFailure` (R82). -/
def execReserved6 (top : BitVec 1) (low : BitVec 11) (s : State) : Outcome State Fault Refusal :=
  .next (s.decodeFailure (encodeReserved .reserved6 top low))

/-- A word of reserved opcode 7 raises `DecodeFailure` (R82). -/
def execReserved7 (top : BitVec 1) (low : BitVec 11) (s : State) : Outcome State Fault Refusal :=
  .next (s.decodeFailure (encodeReserved .reserved7 top low))

end Sys2Proof.Machine
end

