-- ==== Sys2Proof/Machine/Dispatch.lean ====
section
/-! DEFINITION. The dispatch: one arm per row of the opcode table. -/

namespace Sys2Proof.Machine

open Sys2Proof Host

def exec (i : Instr) (s : State) : Host.Outcome State Fault Refusal :=
  match i with
  | .mov ra rb => Sys2Proof.Machine.execMov ra rb s
  | .add ra rb => Sys2Proof.Machine.execAdd ra rb s
  | .reserved2 top low => Sys2Proof.Machine.execReserved2 top low s
  | .reserved3 top low => Sys2Proof.Machine.execReserved3 top low s
  | .reserved4 top low => Sys2Proof.Machine.execReserved4 top low s
  | .reserved5 top low => Sys2Proof.Machine.execReserved5 top low s
  | .reserved6 top low => Sys2Proof.Machine.execReserved6 top low s
  | .reserved7 top low => Sys2Proof.Machine.execReserved7 top low s
  | .ldl ra imm => Sys2Proof.Machine.execLdl ra imm s
  | .ldh ra imm => Sys2Proof.Machine.execLdh ra imm s
  | .cmp ra rb => Sys2Proof.Machine.execCmp ra rb s
  | .je addr => Sys2Proof.Machine.execJe addr s
  | .jmp addr => Sys2Proof.Machine.execJmp addr s
  | .ld ra addr => Sys2Proof.Machine.execLd ra addr s
  | .st ra addr => Sys2Proof.Machine.execSt ra addr s
  | .hlt => Sys2Proof.Machine.execHlt s

end Sys2Proof.Machine
end

