-- ==== Sys2Proof/Machine/Tick.lean ====
section
/-! DEFINITION. The clock step `Tick`: one state of the six-state cycle per call (R100 to R112). A test
can compare it state by state with a trace of latches; `step` (Step.lean) is the instruction level. -/

namespace Sys2Proof.Machine

open Sys2Proof Host

/-- State 1, Fetch-Address: `T <- ALU(nop, x[7])` (R101). -/
def tickFetchAddress (s : State) : State := (s.runAlu .nop s.pc 0).toPhase .fw

/-- State 2, Fetch-Word: `MAR <- T`, the read into `MDR`, and `T <- ALU(inc, x[7])`; an address that
does not exist raises `FetchOutOfRange` and the cycle stays here (R100, R102, R186; D7, log 4). -/
def tickFetchWord (p : Config.OobPolicy) (s : State) : State :=
  let s1 := s.setMar s.t
  match memRead p s1.mem s1.mar with
  | none => s1.raise (.fetchOutOfRange s1.mar)
  | some w => ((s1.setMdr w).runAlu .inc s1.pc 0).toPhase .dec

/-- State 3 for an instruction with a descriptor: `x[7] <- T`, then the A-bus value of the class goes
through the ALU into `T` (R103 to R105; D6 and D19, logs 10 and 15). -/
def tickDecodeOperand (s : State) : State :=
  let s1 := s.writeReg .pc s.t
  match (decode s.ir).opcode.cls with
  | .rr => (s1.runAlu .nop (s1.readReg (Reg.ofCode (rbField s1.ir))) 0).toPhase .exe
  | .mem => (s1.runAlu .nop (zext16 (imm8Field s1.ir)) 0).toPhase .fo
  | .other => s1.toPhase .exe
  | .reserved => s.decodeFailure s.ir

/-- State 3, Decode: `IR <- MDR`; a reserved opcode raises `DecodeFailure` before the program counter
is committed (R103, R185; D9, log 2). -/
def tickDecode (s : State) : State := tickDecodeOperand (s.setIr s.mdr)

/-- State 4, Fetch-Operand, of `ld` and `st`: `MAR <- T`, for a load the read into `MDR`, and the
address through the ALU (R106). -/
def tickFetchOperand (p : Config.OobPolicy) (s : State) : Outcome State Fault Refusal :=
  let s1 := s.setMar s.t
  match (decode s.ir).opcode with
  | .ld =>
    match memRead p s1.mem s1.mar with
    | none => .fault (.dataOutOfRange s1.mar)
    | some v => .next (((s1.setMdr v).runAlu .nop s1.t 0).toPhase .exe)
  | .st => .next ((s1.runAlu .nop s1.t 0).toPhase .exe)
  | .mov | .add | .reserved2 | .reserved3 | .reserved4 | .reserved5 | .reserved6 | .reserved7
  | .ldl | .ldh | .cmp | .je | .jmp | .hlt => .fault (.phaseUnvisited .fo s.ir)

/-- State 5, Execute, by the table of R107; `hlt` halts and the cycle stays here (R109). -/
def tickExecute (s : State) : Outcome State Fault Refusal :=
  match decode s.ir with
  | .hlt => .next s.halt
  | .mov _ _ => .next ((s.runAlu .nop s.t 0).toPhase .wb)
  | .add ra _ => .next ((s.runAlu .add (s.readReg ra) s.t).toPhase .wb)
  | .ldl _ imm => .next ((s.runAlu .nop (zext16 imm) 0).toPhase .wb)
  | .ldh _ imm => .next ((s.runAlu .nop (immHigh imm) 0).toPhase .wb)
  | .cmp ra _ => .next ((s.runAlu .cmp (s.readReg ra) s.t).toPhase .wb)
  | .je addr => .next ((s.runAlu .nop (zext16 addr) 0).toPhase .wb)
  | .jmp addr => .next ((s.runAlu .nop (zext16 addr) 0).toPhase .wb)
  | .ld _ _ => .next ((s.runAlu .nop s.mdr 0).toPhase .wb)
  | .st ra _ => .next ((s.runAlu .nop (s.readReg ra) 0).toPhase .wb)
  | .reserved2 _ _ | .reserved3 _ _ | .reserved4 _ _ | .reserved5 _ _ | .reserved6 _ _
  | .reserved7 _ _ => .fault (.phaseUnvisited .exe s.ir)

/-- State 6, Write-Back, by the table of R111; then Fetch-Address again. -/
def tickWriteBack (p : Config.OobPolicy) (s : State) : Outcome State Fault Refusal :=
  match decode s.ir with
  | .st _ _ =>
    match memWrite p s.mem s.mar s.t with
    | none => .fault (.dataOutOfRange s.mar)
    | some m => .next ((s.setMem m).toPhase .fa)
  | .ldl ra _ => .next ((s.writeReg ra (s.readReg ra ||| s.t)).toPhase .fa)
  | .ldh ra _ => .next ((s.writeReg ra (s.readReg ra ||| s.t)).toPhase .fa)
  | .je _ => .next ((if s.z then s.writeReg .pc s.t else s).toPhase .fa)
  | .cmp _ _ => .next (s.toPhase .fa)
  | .mov ra _ => .next ((s.writeReg ra s.t).toPhase .fa)
  | .add ra _ => .next ((s.writeReg ra s.t).toPhase .fa)
  | .ld ra _ => .next ((s.writeReg ra s.t).toPhase .fa)
  | .jmp _ => .next ((s.writeReg .pc s.t).toPhase .fa)
  | .hlt | .reserved2 _ _ | .reserved3 _ _ | .reserved4 _ _ | .reserved5 _ _ | .reserved6 _ _
  | .reserved7 _ _ => .fault (.phaseUnvisited .wb s.ir)

/-- The action of the current state of the cycle (R100). -/
def tickRunning (p : Config.OobPolicy) (s : State) : Outcome State Fault Refusal :=
  match s.phase with
  | .fa => .next (tickFetchAddress s)
  | .fw => .next (tickFetchWord p s)
  | .dec => .next (tickDecode s)
  | .fo => tickFetchOperand p s
  | .exe => tickExecute s
  | .wb => tickWriteBack p s

/-- `Tick`, one clock call, under an out-of-range policy: a machine that is not running does not change
(R112; D11, log 2). -/
def tickWith (p : Config.OobPolicy) (s : State) : Outcome State Fault Refusal :=
  match s.status with
  | .running => tickRunning p s
  | .halted => .next s
  | .faulted _ => .next s

/-- `Tick` under the policy of Config (R112). -/
def tick (s : State) : Outcome State Fault Refusal := tickWith Config.oobPolicy s

/-- `k` clock calls, stopping at a step without a next state (R122). -/
def ticksWith (p : Config.OobPolicy) : Nat → State → Outcome State Fault Refusal
  | 0, s => .next s
  | k + 1, s =>
    match tickWith p s with
    | .next s' => ticksWith p k s'
    | .fault r => .fault r
    | .refused r => .refused r

end Sys2Proof.Machine
end

