-- ==== Sys2Proof/Machine/Run.lean ====
section
/-! DEFINITION. The instruction level: `Step`, one whole instruction (R120), and what a step does from
inside an instruction (log 1). -/

namespace Sys2Proof.Machine

open Sys2Proof Host

/-- The state in Decode with the word `w` of address `a` fetched: the latches as R101 to R103 leave
them, the program counter not yet committed (R120, R121). -/
def State.fetched (s : State) (a w : Word) : State :=
  { s with t := alu .inc a 0, mar := a, mdr := w, ir := w, phase := .dec }

/-- The state after a fetch at an address that does not exist: `pc = MAR = T = addr`, the cycle in
Fetch-Word, the status faulted, nothing else changed (R186; D7, log 4). -/
def State.fetchFault (s : State) (a : Word) : State :=
  ({ s with t := a, mar := a }.toPhase .fw).raise (.fetchOutOfRange a)

/-- `Step` of a running machine at an instruction boundary (R120). -/
def instrStep (p : Config.OobPolicy) (s : State) : Outcome State Fault Refusal :=
  match memRead p s.mem s.pc with
  | none => .next (s.fetchFault s.pc)
  | some w => exec (decode w) (s.fetched s.pc w)

/-- Has the instruction in progress ended: is the machine at a boundary, or stopped (R113)? -/
def State.atBoundary (s : State) : Bool := s.phase == .fa || s.status != .running

/-- Clock steps until the instruction in progress ends, at least one and at most `fuel` (log 1). -/
def finishInstr (p : Config.OobPolicy) : Nat → State → Outcome State Fault Refusal
  | 0, s => .next s
  | fuel + 1, s =>
    match tickWith p s with
    | .next s' => if s'.atBoundary then .next s' else finishInstr p fuel s'
    | .fault r => .fault r
    | .refused r => .refused r

/-- One instruction-level step under an out-of-range policy. At a boundary it is `Step` (R120); from
inside an instruction it completes that instruction, of which at most five clock steps are left
(DESIGN CHOICE, log 1); a machine that is not running does not change (R35, R112; log 2). -/
def stepWith (p : Config.OobPolicy) (s : State) : Outcome State Fault Refusal :=
  match s.status with
  | .running =>
    match s.phase with
    | .fa => instrStep p s
    | .fw | .dec | .fo | .exe | .wb => finishInstr p 5 s
  | .halted => .next s
  | .faulted _ => .next s

/-- The number of clock steps of the instruction at the program counter, a fetch fault included (R113). -/
def clockStepsAt (p : Config.OobPolicy) (s : State) : Nat :=
  match memRead p s.mem s.pc with
  | none => 2
  | some w => (decode w).opcode.clockSteps

/-- The state in which the next step fetches and runs the word `w`: at a boundary, running, the program
counter at a word that exists, and `w` stored there. Nothing changes that the fetch does not need
(log 19). -/
def State.readyToRun (s : State) (w : Word) : State :=
  let a := s.pc.toNat % Config.memWords
  (({ s with status := .running }.toPhase .fa).writeReg .pc (BitVec.ofNat 16 a)).placeWord a w

end Sys2Proof.Machine
end

