-- ==== Sys2Proof/Machine/Step.lean ====
section
/-! DEFINITION. The machine's step: one instruction (R120) under the policy of Config. -/

namespace Sys2Proof.Machine

open Sys2Proof Host

/-- One instruction (R120); the clock step is `tick` (Tick.lean). -/
def step (s : State) : Host.Outcome State Fault Refusal := stepWith Config.oobPolicy s

/-- `s` with an instruction of `nbits` bits stored where the next step fetches it (log 19). -/
def State.withFetchWord (s : State) (nbits w : Nat) : State :=
  s.readyToRun (BitVec.ofNat 16 (w % 2 ^ nbits))

end Sys2Proof.Machine
end

