-- ==== Sys2Proof/Machine/Assembler.lean ====
section
/-! DEFINITION. The assembler's operand and encoding rules (R89 to R96), over lines already split into
tokens (Lexer.lean has the text). The assembler is surrounding software, not the CORE (R5). -/

namespace Sys2Proof.Assembler

open Sys2Proof

/-- A name in source text: a mnemonic, a register or a label. -/
abbrev Name := List Char

/-- An operand token (R88): a hexadecimal literal or a name. -/
inductive Operand where
  | hex (value : Nat)
  | name (text : Name)
  deriving DecidableEq, Repr

/-- A mnemonic with its operand tokens (R87). -/
structure SourceInstr where
  mnemonic : Name
  operands : List Operand
  deriving DecidableEq, Repr

/-- A line: a label definition, an instruction, both or neither (R87). -/
structure SourceLine where
  label : Option Name
  instr : Option SourceInstr
  deriving DecidableEq, Repr

/-- Why no image is produced; every failure is fatal (R96). -/
inductive Refusal where
  /-- An unknown mnemonic (R89). -/
  | invalidOpcode
  /-- A token that is no literal, label or register: also an undefined label (R92, R93, C11). -/
  | invalidOperand
  /-- A value that does not fit its field (R94, D18). -/
  | outOfRange
  /-- A label defined twice (R92). -/
  | duplicateLabel
  /-- Not as many operands as the instruction's arity (DESIGN CHOICE, log 22). -/
  | wrongArity
  /-- A line of none of the forms of R87 (DESIGN CHOICE, log 23). -/
  | malformedLine
  deriving DecidableEq, Repr

/-- The ten mnemonics, exact and in lower case (R89). -/
def mnemonicOpcode (m : Name) : Option Opcode :=
  if m = ['m', 'o', 'v'] then some .mov
  else if m = ['a', 'd', 'd'] then some .add
  else if m = ['l', 'd', 'l'] then some .ldl
  else if m = ['l', 'd', 'h'] then some .ldh
  else if m = ['c', 'm', 'p'] then some .cmp
  else if m = ['j', 'e'] then some .je
  else if m = ['j', 'm', 'p'] then some .jmp
  else if m = ['l', 'd'] then some .ld
  else if m = ['s', 't'] then some .st
  else if m = ['h', 'l', 't'] then some .hlt
  else none

/-- The register names `r0` to `r3` with their codes (R90). -/
def registerCode (n : Name) : Option Nat :=
  if n = ['r', '0'] then some 0
  else if n = ['r', '1'] then some 1
  else if n = ['r', '2'] then some 2
  else if n = ['r', '3'] then some 3
  else none

/-- The label table: names with the index of the next emitted word (R92). -/
abbrev Labels := List (Name × Nat)

/-- The index a label is bound to. -/
def lookupLabel (labels : Labels) (n : Name) : Option Nat := (labels.find? (fun l => l.1 == n)).map (·.2)

/-- The first pass: each label is bound to the count of emitted words before it (R92). -/
def bindLabels (count : Nat) (labels : Labels) : List SourceLine → Except Refusal Labels
  | [] => .ok labels
  | line :: rest =>
    let next := if line.instr.isSome then count + 1 else count
    match line.label with
    | none => bindLabels next labels rest
    | some n =>
      if (lookupLabel labels n).isSome then .error .duplicateLabel
      else bindLabels next ((n, count) :: labels) rest

/-- An operand's value, and whether it came from a register name: literal first, then label, then
register (R93). -/
def resolve (labels : Labels) : Operand → Except Refusal (Nat × Bool)
  | .hex v => .ok (v, false)
  | .name n =>
    match lookupLabel labels n with
    | some v => .ok (v, false)
    | none =>
      match registerCode n with
      | some c => .ok (c, true)
      | none => .error .invalidOperand

/-- A value that must fit its field (R94). -/
def inField (limit v : Nat) : Except Refusal Nat := if v ≤ limit then .ok v else .error .outOfRange

/-- The encoding function (R95): a second operand that came from a register name is shifted into bits
7:5, whatever the instruction (R91). -/
def encodeLine (labels : Labels) (i : SourceInstr) : Except Refusal Word :=
  match mnemonicOpcode i.mnemonic with
  | none => .error .invalidOpcode
  | some op =>
    let base := op.field.setWidth 16 <<< 11
    match op.arity?, i.operands with
    | some 2, [first, second] => do
      let a ← resolve labels first
      let b ← resolve labels second
      let av ← inField 7 a.1
      let bv ← inField 0xFF b.1
      .ok (base ||| (BitVec.ofNat 16 av <<< 8) |||
        (if b.2 then BitVec.ofNat 16 bv <<< 5 else BitVec.ofNat 16 bv))
    | some 1, [only] => do
      let b ← resolve labels only
      let bv ← inField 0xFF b.1
      .ok (base ||| BitVec.ofNat 16 bv)
    | some 0, [] => .ok base
    | _, _ => .error .wrongArity

/-- The assembler name of a register that has one (R90). -/
def registerName : Reg → Option Name
  | .r0 => some ['r', '0']
  | .r1 => some ['r', '1']
  | .r2 => some ['r', '2']
  | .r3 => some ['r', '3']
  | .x4 => none
  | .flags => none
  | .sp => none
  | .pc => none

/-- The operand forms of R91: how an instruction is written, if it can be written. -/
def sourceOf : Instr → Option SourceInstr
  | .mov ra rb => twoRegisters ['m', 'o', 'v'] ra rb
  | .add ra rb => twoRegisters ['a', 'd', 'd'] ra rb
  | .reserved2 _ _ => none
  | .reserved3 _ _ => none
  | .reserved4 _ _ => none
  | .reserved5 _ _ => none
  | .reserved6 _ _ => none
  | .reserved7 _ _ => none
  | .ldl ra imm => registerAndLiteral ['l', 'd', 'l'] ra imm
  | .ldh ra imm => registerAndLiteral ['l', 'd', 'h'] ra imm
  | .cmp ra rb => twoRegisters ['c', 'm', 'p'] ra rb
  | .je addr => some ⟨['j', 'e'], [.hex addr.toNat]⟩
  | .jmp addr => some ⟨['j', 'm', 'p'], [.hex addr.toNat]⟩
  | .ld ra addr => registerAndLiteral ['l', 'd'] ra addr
  | .st ra addr => registerAndLiteral ['s', 't'] ra addr
  | .hlt => some ⟨['h', 'l', 't'], []⟩
where
  /-- `mnemonic ra, rb`. -/
  twoRegisters (m : Name) (ra rb : Reg) : Option SourceInstr :=
    match registerName ra, registerName rb with
    | some a, some b => some ⟨m, [.name a, .name b]⟩
    | _, _ => none
  /-- `mnemonic ra, 0x..`. -/
  registerAndLiteral (m : Name) (ra : Reg) (imm : Byte) : Option SourceInstr :=
    (registerName ra).map fun a => ⟨m, [.name a, .hex imm.toNat]⟩

/-- The second pass: one word per instruction line, in source order (R96). -/
def encodeLines (labels : Labels) : List SourceLine → Except Refusal (List Word)
  | [] => .ok []
  | line :: rest =>
    match line.instr with
    | none => encodeLines labels rest
    | some i => do
      let w ← encodeLine labels i
      let ws ← encodeLines labels rest
      .ok (w :: ws)

/-- Both passes: the image, or the reason there is none (R92, R96). -/
def assemble (source : List SourceLine) : Except Refusal (List Word) := do
  let labels ← bindLabels 0 [] source
  encodeLines labels source

end Sys2Proof.Assembler
end

