-- ==== Sys2Proof/Machine/Boot.lean ====
section
/-! DEFINITION. The host's side of a run: the image loaded at address 0, the driving loop, and the
result cell read back after a halt (R60, R62, R122, R181, R210). -/

namespace Sys2Proof.Machine

open Sys2Proof Host

/-- Why the loader refuses an image file. -/
inductive LoadRefusal where
  /-- More words than the memory holds: "the load does not happen and no run starts" (R60, D13; log 19). -/
  | tooLong
  /-- A byte string of odd length, which is no sequence of words (DESIGN CHOICE, log 18). -/
  | oddLength
  deriving DecidableEq, Repr

/-- Word `i` of the image goes to address `a + i` (R60). -/
def Memory.loadWords (a : Nat) : List Word → Memory → Memory
  | [], m => m
  | w :: ws, m => Memory.loadWords (a + 1) ws (m.writeWord a w)

/-- Reset and load: the zeroed state with the image from address 0 (R42, R60, R210). -/
def loadImage (image : List Word) : Except LoadRefusal State :=
  if image.length ≤ Config.memWords then
    .ok { State.reset with mem := Memory.loadWords Config.loadBase image State.reset.mem }
  else .error .tooLong

/-- The words of an image file (R56): two bytes each, in the order of the parameter. -/
def wordsOfBytes (order : Config.ByteOrder) : List Byte → Except LoadRefusal (List Word)
  | [] => .ok []
  | [_] => .error .oddLength
  | b0 :: b1 :: rest => (wordsOfBytes order rest).map (wordOfBytes order b0 b1 :: ·)

/-- The bytes of an image file (R56). -/
def bytesOfWords (order : Config.ByteOrder) : List Word → List Byte
  | [] => []
  | w :: ws => (bytesOfWord order w).1 :: (bytesOfWord order w).2 :: bytesOfWords order ws

/-- Reset and load of an image file (R56, R60). -/
def loadImageFile (bytes : List Byte) : Except LoadRefusal State :=
  (wordsOfBytes Config.imageByteOrder bytes).bind loadImage

/-- The driving loop, cut off after `fuel` clock calls: "Cancellation is simply: stop calling" (R122).
It stops by itself when the machine is no longer running. -/
def drive : Nat → State → Outcome State Fault Refusal
  | 0, s => .next s
  | fuel + 1, s =>
    match s.status with
    | .running =>
      match tick s with
      | .next s' => drive fuel s'
      | .fault r => .fault r
      | .refused r => .refused r
    | .halted => .next s
    | .faulted _ => .next s

/-- What the host reads back: the result cell of a halted machine, and nothing of a machine that runs
or has faulted (R62, R123, R181, R189). -/
def hostResult (s : State) : Option Word :=
  match s.status with
  | .halted => some (s.mem.readWord Config.resultAddr)
  | .running => none
  | .faulted _ => none

end Sys2Proof.Machine
end

