-- ==== Sys2Proof/Safety.lean ====
section
/-! DEFINITION. What counts as a good run, which states a run can reach, and the invariant of the cycle,
in the terms the statements use. -/

namespace Sys2Proof.Machine

open Sys2Proof Host

/-- A run has ended well exactly when the status is halted (R123). -/
def State.endedWell (s : State) : Prop := s.status = .halted

/-- A run has ended badly when the status is faulted (R123, R189). -/
def State.endedBadly (s : State) : Prop := ∃ f, s.status = .faulted f

/-- What the latches hold in each state of the cycle of a running machine (R101 to R107): the fetch
address in Fetch-Word, the fetched word and the incremented counter in Decode, the data address of
`ld` and `st` from Fetch-Operand on, and an instruction that visits the state. -/
def State.phaseInv (p : Config.OobPolicy) (s : State) : Prop :=
  match s.phase with
  | .fa => True
  | .fw => s.t = s.pc
  | .dec => s.mar = s.pc ∧ s.t = s.pc + 1 ∧ memRead p s.mem s.pc = some s.mdr
  | .fo => (decode s.ir).opcode.cls = .mem ∧ dataAddr (decode s.ir) = some s.t
  | .exe => (decode s.ir).opcode.cls ≠ .reserved ∧ ∀ a, dataAddr (decode s.ir) = some a → s.mar = a
  | .wb =>
    (decode s.ir).opcode.cls ≠ .reserved ∧ decode s.ir ≠ .hlt ∧
      ∀ a, dataAddr (decode s.ir) = some a → s.mar = a

/-- Where a stopped machine stands: after `hlt` in Execute (R109); after a decode failure in Decode with
the bad word in `IR` and `MDR`, its address in `MAR` and the program counter and the address plus one
in `T` (R185); after a fetch out of range in Fetch-Word with the address in all three (R186). -/
def State.statusInv (p : Config.OobPolicy) (s : State) : Prop :=
  match s.status with
  | .running => s.phaseInv p
  | .halted => s.phase = .exe ∧ decode s.ir = .hlt
  | .faulted (.decodeFailure w) =>
    s.phase = .dec ∧ (decode w).opcode.cls = .reserved ∧ s.ir = w ∧ s.mdr = w ∧
      s.mar = s.pc ∧ s.t = s.pc + 1 ∧ memRead p s.mem s.pc = some w
  | .faulted (.fetchOutOfRange a) =>
    s.phase = .fw ∧ s.pc = a ∧ s.mar = a ∧ s.t = a ∧ resolveAddr p a = none

/-- The invariant of the machine: memory in its canonical form, and the latches, phase and status in
agreement. It holds after reset and every clock step and every instruction keeps it. -/
def State.coherent (p : Config.OobPolicy) (s : State) : Prop := s.mem.wf = true ∧ s.statusInv p

/-- The states a run can reach: reset and load, then clock steps (R122). -/
inductive Reachable (p : Config.OobPolicy) : State → Prop where
  /-- Reset and load of an image of at most 256 words (R210). -/
  | boot (image : List Word) (s : State) : loadImage image = .ok s → Reachable p s
  /-- One clock call (R112). -/
  | tick (s s' : State) : Reachable p s → tickWith p s = .next s' → Reachable p s'

end Sys2Proof.Machine
end

