-- ==== Sys2Proof/WellFormed.lean ====
section
/-! DEFINITION. Which instructions are of the form an assembler can write. Every operand of `Instr` has
exactly the width of its field, so every term of `Instr` is a word the CORE can fetch and no meaning
asks for these checks; they mark off the 4657 "valid operand combinations" of example E1 (R86, R90). -/

namespace Sys2Proof

/-- Does the register have an assembler name? Only `r0` to `r3` do (R21, R90). -/
def Reg.named : Reg → Bool
  | .r0 => true
  | .r1 => true
  | .r2 => true
  | .r3 => true
  | .x4 => false
  | .flags => false
  | .sp => false
  | .pc => false

/-- Is the opcode one of the ten with a descriptor (R76)? -/
def Opcode.implemented (o : Opcode) : Bool := o.arity?.isSome

/-- The register operands of an instruction, in order. -/
def Instr.regOperands : Instr → List Reg
  | .mov ra rb => [ra, rb]
  | .add ra rb => [ra, rb]
  | .reserved2 _ _ => []
  | .reserved3 _ _ => []
  | .reserved4 _ _ => []
  | .reserved5 _ _ => []
  | .reserved6 _ _ => []
  | .reserved7 _ _ => []
  | .ldl ra _ => [ra]
  | .ldh ra _ => [ra]
  | .cmp ra rb => [ra, rb]
  | .je _ => []
  | .jmp _ => []
  | .ld ra _ => [ra]
  | .st ra _ => [ra]
  | .hlt => []

/-- The assembler form: an implemented opcode, and register operands that have names (R76, R90). -/
def Instr.wellFormed (i : Instr) : Bool :=
  i.opcode.implemented && i.regOperands.all Reg.named

end Sys2Proof
end

