-- ==== Sys2Proof/Certificates/Slice0/Obligations.lean ====
section
/-! DEFINITION. The statements for the provers. An operand value in them is written
`if r = .pc then s.pc + 1 else s.readReg r`: every register reads its value, and register 7 the
incremented counter (R29, the spec's decision D6, log 10). A statement over all eight registers rests
on the spec's decision D5 for registers 4 to 7 (log 9). -/

open Sys2Proof Sys2Proof.Machine Host

/-! ### Encoding -/

/-- R86: decoding an encoded instruction gives it back, with every operand at every value its field
admits, the reserved opcodes included (log 3). -/
def Obligations.DecodeRecoversEveryEncodedInstruction : Prop :=
  ∀ i : Instr, decode (encode i) = i

/-- R86, R83: encoding a decoded word gives the word back exactly when its unused bits are 0. The
decoder's ignoring of unused bits is the spec's decision D4 (log 8); a reserved word has no unused bit here, since
its fault carries all of it (the model's choice, log 3). -/
def Obligations.EncodeRecoversExactlyTheCanonicalWords : Prop :=
  ∀ w : Word, encode (decode w) = w ↔ w &&& (decode w).opcode.unusedMask = 0

/-- R83: words that differ in unused bits only decode alike (the spec's decision D4, log 8). -/
def Obligations.UnusedBitsDoNotChangeDecoding : Prop :=
  ∀ w v : Word, (w ^^^ v) &&& ~~~(decode w).opcode.unusedMask = 0 → decode v = decode w

/-- R95: the encoding function in its arithmetic form, `op << 11`, `a << 8`, and `b << 5` for a register
or `b` for an immediate or address. -/
def Obligations.EncodedWordsAreTheShiftedSums : Prop :=
  (∀ ra rb : Reg,
    (encode (.mov ra rb)).toNat = 0 * 2 ^ 11 + ra.code.toNat * 2 ^ 8 + rb.code.toNat * 2 ^ 5 ∧
    (encode (.add ra rb)).toNat = 1 * 2 ^ 11 + ra.code.toNat * 2 ^ 8 + rb.code.toNat * 2 ^ 5 ∧
    (encode (.cmp ra rb)).toNat = 10 * 2 ^ 11 + ra.code.toNat * 2 ^ 8 + rb.code.toNat * 2 ^ 5) ∧
  (∀ (ra : Reg) (b : Byte),
    (encode (.ldl ra b)).toNat = 8 * 2 ^ 11 + ra.code.toNat * 2 ^ 8 + b.toNat ∧
    (encode (.ldh ra b)).toNat = 9 * 2 ^ 11 + ra.code.toNat * 2 ^ 8 + b.toNat ∧
    (encode (.ld ra b)).toNat = 13 * 2 ^ 11 + ra.code.toNat * 2 ^ 8 + b.toNat ∧
    (encode (.st ra b)).toNat = 14 * 2 ^ 11 + ra.code.toNat * 2 ^ 8 + b.toNat) ∧
  (∀ b : Byte,
    (encode (.je b)).toNat = 11 * 2 ^ 11 + b.toNat ∧ (encode (.jmp b)).toNat = 12 * 2 ^ 11 + b.toNat) ∧
  (encode .hlt).toNat = 15 * 2 ^ 11

/-- R72: the four field functions as slices of the word, and `rb` as the top three bits of `imm8`. -/
def Obligations.FieldsAreTheSlicesOfTheWord : Prop :=
  ∀ w : Word,
    (opcField w).toNat = w.toNat / 2 ^ 11 % 2 ^ 4 ∧ (raField w).toNat = w.toNat / 2 ^ 8 % 2 ^ 3 ∧
    (rbField w).toNat = w.toNat / 2 ^ 5 % 2 ^ 3 ∧ (imm8Field w).toNat = w.toNat % 2 ^ 8 ∧
    (rbField w).toNat = (imm8Field w).toNat / 2 ^ 5

/-- R77: the decode function, case by case on `w[14:11]`. The words it calls `DecodeFailure(w)` decode to
reserved instructions that carry the whole word (log 3). -/
def Obligations.DecodeFollowsTheOpcodeMap : Prop :=
  ∀ w : Word,
    ((opcField w).toNat = 0 → decode w = .mov (Reg.ofCode (raField w)) (Reg.ofCode (rbField w))) ∧
    ((opcField w).toNat = 1 → decode w = .add (Reg.ofCode (raField w)) (Reg.ofCode (rbField w))) ∧
    ((opcField w).toNat = 8 → decode w = .ldl (Reg.ofCode (raField w)) (imm8Field w)) ∧
    ((opcField w).toNat = 9 → decode w = .ldh (Reg.ofCode (raField w)) (imm8Field w)) ∧
    ((opcField w).toNat = 10 → decode w = .cmp (Reg.ofCode (raField w)) (Reg.ofCode (rbField w))) ∧
    ((opcField w).toNat = 11 → decode w = .je (imm8Field w)) ∧
    ((opcField w).toNat = 12 → decode w = .jmp (imm8Field w)) ∧
    ((opcField w).toNat = 13 → decode w = .ld (Reg.ofCode (raField w)) (imm8Field w)) ∧
    ((opcField w).toNat = 14 → decode w = .st (Reg.ofCode (raField w)) (imm8Field w)) ∧
    ((opcField w).toNat = 15 → decode w = .hlt) ∧
    (2 ≤ (opcField w).toNat ∧ (opcField w).toNat ≤ 7 →
      (decode w).opcode.cls = .reserved ∧ (decode w).opcode.field = opcField w ∧ encode (decode w) = w)

/-- R73, R74, R75: where each format puts its fields, and 0 in every unused bit. -/
def Obligations.EncodedFieldsStandWhereTheFormatsPutThem : Prop :=
  (∀ (i : Instr) (ra rb : Reg), i = .mov ra rb ∨ i = .add ra rb ∨ i = .cmp ra rb →
    topField (encode i) = 0 ∧ opcField (encode i) = i.opcode.field ∧ raField (encode i) = ra.code ∧
    rbField (encode i) = rb.code ∧ (encode i).extractLsb' 0 5 = 0) ∧
  (∀ (i : Instr) (ra : Reg) (b : Byte), i = .ldl ra b ∨ i = .ldh ra b ∨ i = .ld ra b ∨ i = .st ra b →
    topField (encode i) = 0 ∧ opcField (encode i) = i.opcode.field ∧ raField (encode i) = ra.code ∧
    imm8Field (encode i) = b) ∧
  (∀ (i : Instr) (b : Byte), i = .je b ∨ i = .jmp b →
    topField (encode i) = 0 ∧ opcField (encode i) = i.opcode.field ∧ raField (encode i) = 0 ∧
    imm8Field (encode i) = b) ∧
  (topField (encode .hlt) = 0 ∧ opcField (encode .hlt) = Opcode.hlt.field ∧ lowField (encode .hlt) = 0)

/-- Twelve words: nine of E1 and of D-17, D-20 and one of E3 (V21), as the spec's tables decode them, and
0x9000 and 0x3FFF (D-15, D-13), of which the spec says `DecodeFailure(w)`: that they decode to reserved
instructions carrying all bits of the word is the model's representation (DESIGN CHOICE, log 3). -/
def Obligations.SampleWordsDecode : Prop :=
  decode 0x0360 = .mov .r3 .r3 ∧ decode 0x0B20 = .add .r3 .r1 ∧ decode 0x9000 = .reserved2 1 0 ∧
  decode 0x3FFF = .reserved7 0 0x7FF ∧ decode 0x4034 = .ldl .r0 0x34 ∧ decode 0x4812 = .ldh .r0 0x12 ∧
  decode 0x5340 = .cmp .r3 .r2 ∧ decode 0x5F07 = .je 0x07 ∧ decode 0x6002 = .jmp 0x02 ∧
  decode 0x6BFF = .ld .r3 0xFF ∧ decode 0x7064 = .st .r0 0x64 ∧ decode 0xFFFF = .hlt

/-- E1, R91, R95: every instruction of assembler form has a source line, and the assembler encodes that
line as the encoder encodes the instruction. -/
def Obligations.AssemblerAgreesWithTheEncoder : Prop :=
  ∀ i : Instr, i.wellFormed = true →
    ∃ src, Assembler.sourceOf i = some src ∧ Assembler.encodeLine [] src = .ok (encode i)

/-! ### Registers, memory, ALU -/

/-- R20: eight entries selected by a 3-bit index, each code naming its own entry; a write is seen by the
next read of its entry and by no other, so none is hardwired, aliased or discarded. -/
def Obligations.RegisterFileHoldsEveryWrite : Prop :=
  (∀ c : BitVec 3, (Reg.ofCode c).code = c) ∧ (∀ r : Reg, Reg.ofCode r.code = r) ∧
  ∀ (s : State) (c d : BitVec 3) (v : Word),
    (s.writeReg (Reg.ofCode c) v).readReg (Reg.ofCode d) = if d = c then v else s.readReg (Reg.ofCode d)

/-- R52, R53, R58: a write at an address below 256 replaces all 16 bits of that word and no other word,
in every memory, canonical or not. -/
def Obligations.MemoryReadsBackEveryWrite : Prop :=
  ∀ (p : Config.OobPolicy) (m : Memory) (addr v : Word), addr.toNat < 256 →
    ∃ m', memWrite p m addr v = some m' ∧
      ∀ b : Word, b.toNat < 256 → memRead p m' b = if b = addr then some v else memRead p m b

/-- R54 (the spec's decision D7, log 4): at an address of 256 or more nothing is read or written under
the policy `fault`, and the access goes to `addr mod 256` under `wrap`. -/
def Obligations.AddressesBeyondMemoryNameNoWord : Prop :=
  ∀ (m : Memory) (addr v : Word), 256 ≤ addr.toNat →
    memRead .fault m addr = none ∧ memWrite .fault m addr v = none ∧
    memRead .wrap m addr = some (m.readWord (addr.toNat % 256)) ∧
    memWrite .wrap m addr v = some (m.writeWord (addr.toNat % 256) v)

/-- R115: the four exercised modes as numbers modulo 2^16. Wrap-around of `add` and `inc` is the spec's
decision D15 (log 11), first minus second in `cmp` D2 (log 6). -/
def Obligations.ExercisedAluModesWrap : Prop :=
  ∀ a b : Word,
    alu .nop a b = a ∧ (alu .inc a b).toNat = (a.toNat + 1) % 2 ^ 16 ∧
    (alu .add a b).toNat = (a.toNat + b.toNat) % 2 ^ 16 ∧
    ((alu .cmp a b).toNat : Int) = ((a.toNat : Int) - b.toNat) % 2 ^ 16

/-- R117 (PRESUMED from the names of the modes, the spec's decision D14, log 12): the six modes that no
state of the cycle selects. -/
def Obligations.UnexercisedAluModes : Prop :=
  ∀ a b : Word,
    ((alu .sub a b).toNat : Int) = ((a.toNat : Int) - b.toNat) % 2 ^ 16 ∧
    ((alu .dec a b).toNat : Int) = ((a.toNat : Int) - 1) % 2 ^ 16 ∧
    ∀ i, i < 16 →
      (alu .and a b).getLsbD i = (a.getLsbD i && b.getLsbD i) ∧
      (alu .or a b).getLsbD i = (a.getLsbD i || b.getLsbD i) ∧
      (alu .xor a b).getLsbD i = (a.getLsbD i ^^ b.getLsbD i) ∧
      (alu .not a b).getLsbD i = !a.getLsbD i

/-- R114, R116: compare writes `Z` as the equality of its inputs and `N` as bit 15 of the wrap-around
difference, never both 1, keeps bits 13:0, and no other mode writes a flag. The direction of the
difference is the spec's decision D2 (log 6), the kept bits D3 (log 7). -/
def Obligations.CompareAloneWritesTheTwoFlags : Prop :=
  ∀ a b flags : Word,
    zeroFlag (aluFlags .cmp a b flags) = decide (a = b) ∧
    (negFlag (aluFlags .cmp a b flags) = true ↔ 2 ^ 15 ≤ ((a.toNat : Int) - b.toNat) % 2 ^ 16) ∧
    ¬ (zeroFlag (aluFlags .cmp a b flags) = true ∧ negFlag (aluFlags .cmp a b flags) = true) ∧
    (∀ i, i < 14 → (aluFlags .cmp a b flags).getLsbD i = flags.getLsbD i) ∧
    ∀ m, m ≠ AluMode.cmp → aluFlags m a b flags = flags

/-! ### The instructions: result and frame, for every state and every operand -/

/-- R140 (its Execute line is the spec's decision D1, log 5): `mov` copies `rb` to `ra`. -/
def Obligations.MovCopiesTheSecondRegister : Prop :=
  ∀ (ra rb : Reg) (s : State),
    ∃ t, exec (.mov ra rb) s = .next t ∧
      (∀ q, t.readReg q =
        if q = ra then (if rb = .pc then s.pc + 1 else s.readReg rb)
        else if q = .pc then s.pc + 1 else s.readReg q) ∧
      t.t = (if rb = .pc then s.pc + 1 else s.readReg rb) ∧
      (∀ a, t.mem.readWord a = s.mem.readWord a) ∧
      t.ir = s.ir ∧ t.mar = s.mar ∧ t.mdr = s.mdr ∧ t.phase = .fa ∧ t.status = s.status

/-- R141: `add` writes the sum modulo 2^16 (the spec's decision D15, log 11) to `ra` and no flag. -/
def Obligations.AddWritesTheSumAndNoFlag : Prop :=
  ∀ (ra rb : Reg) (s : State),
    ∃ (t : State) (sum : Word), exec (.add ra rb) s = .next t ∧
      sum.toNat = ((if ra = .pc then s.pc + 1 else s.readReg ra).toNat +
        (if rb = .pc then s.pc + 1 else s.readReg rb).toNat) % 2 ^ 16 ∧
      (∀ q, t.readReg q = if q = ra then sum else if q = .pc then s.pc + 1 else s.readReg q) ∧
      t.t = sum ∧ (ra ≠ .flags → t.n = s.n ∧ t.z = s.z) ∧
      (∀ a, t.mem.readWord a = s.mem.readWord a) ∧
      t.ir = s.ir ∧ t.mar = s.mar ∧ t.mdr = s.mdr ∧ t.phase = .fa ∧ t.status = s.status

/-- R142: `cmp` sets `Z` when its operands are equal and `N` to bit 15 of first minus second, keeps bits
13:0 of the flags, and writes no other register but the counter. The direction is the spec's decision
D2 (log 6), the bits written D3 (log 7). -/
def Obligations.CmpWritesOnlyTheFlags : Prop :=
  ∀ (ra rb : Reg) (s : State),
    ∃ (t : State) (x y r : Word), exec (.cmp ra rb) s = .next t ∧
      x = (if ra = .pc then s.pc + 1 else s.readReg ra) ∧
      y = (if rb = .pc then s.pc + 1 else s.readReg rb) ∧
      (r.toNat : Int) = ((x.toNat : Int) - y.toNat) % 2 ^ 16 ∧
      t.z = decide (x = y) ∧ t.n = r.getLsbD 15 ∧
      (∀ i, i < 14 → (t.readReg .flags).getLsbD i = (s.readReg .flags).getLsbD i) ∧
      (∀ q, q ≠ .flags → t.readReg q = if q = .pc then s.pc + 1 else s.readReg q) ∧
      t.t = r ∧ (∀ a, t.mem.readWord a = s.mem.readWord a) ∧
      t.ir = s.ir ∧ t.mar = s.mar ∧ t.mdr = s.mdr ∧ t.phase = .fa ∧ t.status = s.status

/-- R150: `ldl` sets bits of the low byte of `ra` and clears none; the high byte is kept. -/
def Obligations.LdlOrsTheLowByte : Prop :=
  ∀ (ra : Reg) (imm : Byte) (s : State),
    ∃ t, exec (.ldl ra imm) s = .next t ∧
      (∀ i, i < 16 → (t.readReg ra).getLsbD i =
        ((if ra = .pc then s.pc + 1 else s.readReg ra).getLsbD i || (decide (i < 8) && imm.getLsbD i))) ∧
      (∀ q, q ≠ ra → t.readReg q = if q = .pc then s.pc + 1 else s.readReg q) ∧
      t.t.toNat = imm.toNat ∧ t.n = s.n ∧ t.z = s.z ∧
      (∀ a, t.mem.readWord a = s.mem.readWord a) ∧
      t.ir = s.ir ∧ t.mar = s.mar ∧ t.mdr = s.mdr ∧ t.phase = .fa ∧ t.status = s.status

/-- R151: `ldh` sets bits of the high byte of `ra` and clears none; the low byte is kept. -/
def Obligations.LdhOrsTheHighByte : Prop :=
  ∀ (ra : Reg) (imm : Byte) (s : State),
    ∃ t, exec (.ldh ra imm) s = .next t ∧
      (∀ i, i < 16 → (t.readReg ra).getLsbD i =
        ((if ra = .pc then s.pc + 1 else s.readReg ra).getLsbD i ||
          (decide (8 ≤ i) && imm.getLsbD (i - 8)))) ∧
      (∀ q, q ≠ ra → t.readReg q = if q = .pc then s.pc + 1 else s.readReg q) ∧
      t.t.toNat = imm.toNat * 256 ∧ (ra ≠ .flags → t.n = s.n ∧ t.z = s.z) ∧
      (∀ a, t.mem.readWord a = s.mem.readWord a) ∧
      t.ir = s.ir ∧ t.mar = s.mar ∧ t.mdr = s.mdr ∧ t.phase = .fa ∧ t.status = s.status

/-- R152: the two immediate loads in either order give the old value OR the 16-bit constant. -/
def Obligations.SplitLoadsCommute : Prop :=
  ∀ (ra : Reg) (lo hi : Byte) (s : State), ra ≠ .pc →
    ∃ t u v w, exec (.ldl ra lo) s = .next t ∧ exec (.ldh ra hi) t = .next u ∧
      exec (.ldh ra hi) s = .next v ∧ exec (.ldl ra lo) v = .next w ∧
      u.readReg ra = s.readReg ra ||| (hi ++ lo) ∧ w.readReg ra = s.readReg ra ||| (hi ++ lo) ∧
      (s.readReg ra = 0 → (u.readReg ra).toNat = hi.toNat * 256 + lo.toNat)

/-- R160: `je` goes to its target when `Z` is 1 and to the next word otherwise; only the counter changes
among the registers. -/
def Obligations.JeFollowsTheZeroFlag : Prop :=
  ∀ (addr : Byte) (s : State),
    ∃ t, exec (.je addr) s = .next t ∧
      (s.z = true → t.pc.toNat = addr.toNat) ∧ (s.z = false → t.pc = s.pc + 1) ∧
      (∀ q, q ≠ .pc → t.readReg q = s.readReg q) ∧ t.t.toNat = addr.toNat ∧
      (∀ a, t.mem.readWord a = s.mem.readWord a) ∧
      t.ir = s.ir ∧ t.mar = s.mar ∧ t.mdr = s.mdr ∧ t.phase = .fa ∧ t.status = s.status

/-- R161: `jmp` goes to its target; only the counter changes among the registers. -/
def Obligations.JmpSetsTheProgramCounter : Prop :=
  ∀ (addr : Byte) (s : State),
    ∃ t, exec (.jmp addr) s = .next t ∧ t.pc.toNat = addr.toNat ∧
      (∀ q, q ≠ .pc → t.readReg q = s.readReg q) ∧ t.t.toNat = addr.toNat ∧
      (∀ a, t.mem.readWord a = s.mem.readWord a) ∧
      t.ir = s.ir ∧ t.mar = s.mar ∧ t.mdr = s.mdr ∧ t.phase = .fa ∧ t.status = s.status

/-- R170: `ld` overwrites `ra` with the word at its absolute address and changes no memory. -/
def Obligations.LdLoadsTheWord : Prop :=
  ∀ (ra : Reg) (addr : Byte) (s : State),
    ∃ t, exec (.ld ra addr) s = .next t ∧
      (∀ q, t.readReg q =
        if q = ra then s.mem.readWord addr.toNat else if q = .pc then s.pc + 1 else s.readReg q) ∧
      (∀ a, t.mem.readWord a = s.mem.readWord a) ∧
      t.t = s.mem.readWord addr.toNat ∧ t.mdr = s.mem.readWord addr.toNat ∧
      t.mar.toNat = addr.toNat ∧ t.ir = s.ir ∧ t.phase = .fa ∧ t.status = s.status

/-- R171: `st` writes all of `ra` to the word at its absolute address, every other word reads as before,
and no register but the counter changes. The address is the one the instruction presents. -/
def Obligations.StStoresTheWord : Prop :=
  ∀ (ra : Reg) (addr : Byte) (s : State),
    ∃ t, exec (.st ra addr) s = .next t ∧
      (∀ d, dataAddr (.st ra addr) = some d →
        t.mem.readWord d.toNat = (if ra = .pc then s.pc + 1 else s.readReg ra) ∧
        ∀ a, a ≠ d.toNat → t.mem.readWord a = s.mem.readWord a) ∧
      dataAddr (.st ra addr) = some (addr.setWidth 16) ∧
      (∀ q, t.readReg q = if q = .pc then s.pc + 1 else s.readReg q) ∧
      t.t = (if ra = .pc then s.pc + 1 else s.readReg ra) ∧ t.mar.toNat = addr.toNat ∧
      t.ir = s.ir ∧ t.mdr = s.mdr ∧ t.phase = .fa ∧ t.status = s.status

/-- R180, R109 (no Write-Back is the spec's resolution C2, D10, log 14): `hlt` halts with the counter
incremented and nothing else changed; the cycle stands in Execute. -/
def Obligations.HltHalts : Prop :=
  ∀ s : State,
    ∃ t, exec .hlt s = .next t ∧ t.status = .halted ∧ t.phase = .exe ∧ t.pc = s.pc + 1 ∧
      (∀ q, q ≠ .pc → t.readReg q = s.readReg q) ∧
      (∀ a, t.mem.readWord a = s.mem.readWord a) ∧
      t.t = s.t ∧ t.ir = s.ir ∧ t.mar = s.mar ∧ t.mdr = s.mdr

/-- R82, R185 (state at the fault by the spec's decision D9, log 2): each of the six reserved opcodes
raises `DecodeFailure` with its whole word and changes no register, latch or memory word. -/
def Obligations.ReservedOpcodesRaiseDecodeFailure : Prop :=
  ∀ (i : Instr) (top : BitVec 1) (low : BitVec 11) (s : State),
    i = .reserved2 top low ∨ i = .reserved3 top low ∨ i = .reserved4 top low ∨
      i = .reserved5 top low ∨ i = .reserved6 top low ∨ i = .reserved7 top low →
    ∃ (t : State) (w : Word), exec i s = .next t ∧ t.status = .faulted (.decodeFailure w) ∧
      topField w = top ∧ opcField w = i.opcode.field ∧ lowField w = low ∧
      2 ≤ (opcField w).toNat ∧ (opcField w).toNat ≤ 7 ∧
      (∀ q, t.readReg q = s.readReg q) ∧ (∀ a, t.mem.readWord a = s.mem.readWord a) ∧
      t.t = s.t ∧ t.ir = s.ir ∧ t.mar = s.mar ∧ t.mdr = s.mdr ∧ t.phase = .dec

/-! ### All instructions -/

/-- R187: no instruction's own execution can stop the model; every one answers a next state. -/
def Obligations.EveryInstructionAnswers : Prop :=
  ∀ (i : Instr) (s : State), ∃ t, exec i s = .next t

/-- R80, R108, R110: a register other than the destination, the counter and, for `cmp`, the flags, is
left alone by every instruction. -/
def Obligations.OnlyTheDestinationIsWritten : Prop :=
  ∀ (i : Instr) (s t : State) (q : Reg), exec i s = .next t →
    dest i ≠ some q → q ≠ .pc → (q ≠ .flags ∨ i.opcode ≠ .cmp) → t.readReg q = s.readReg q

/-- R59: memory changes by `st` alone, and then only at the address it presents. -/
def Obligations.OnlyStoresChangeMemory : Prop :=
  ∀ (i : Instr) (s t : State), exec i s = .next t →
    (i.opcode ≠ .st → t.mem = s.mem) ∧
    ∀ d a, dataAddr i = some d → a ≠ d.toNat → t.mem.readWord a = s.mem.readWord a

/-- R23, R24, R226, C5: an instruction of assembler form leaves entry 4, the stack pointer and bits 13:0
of the flags alone, and only `cmp` changes the flags. -/
def Obligations.AssemblerFormKeepsTheSpecialRegisters : Prop :=
  ∀ (i : Instr) (s t : State), i.wellFormed = true → exec i s = .next t →
    t.readReg .x4 = s.readReg .x4 ∧ t.readReg .sp = s.readReg .sp ∧
    (∀ k, k < 14 → (t.readReg .flags).getLsbD k = (s.readReg .flags).getLsbD k) ∧
    (i.opcode ≠ .cmp → t.readReg .flags = s.readReg .flags)

/-- R109, R112, R187, R189: from a running state, `hlt` and nothing else halts, a reserved opcode and
nothing else faults, and never with another fault. -/
def Obligations.OnlyHltHaltsAndOnlyReservedFaults : Prop :=
  ∀ (i : Instr) (s t : State), s.status = .running → exec i s = .next t →
    (t.status = .halted ↔ i = .hlt) ∧
    (∀ f, t.status = .faulted f ↔ i.opcode.cls = .reserved ∧ f = .decodeFailure (encode i)) ∧
    (t.status = .running ↔ i ≠ .hlt ∧ i.opcode.cls ≠ .reserved)

/-- R27: the counter after every instruction that decodes is the address plus one, unless it is a jump
taken or its destination is register 7. -/
def Obligations.SequentialFlowIsPlusOne : Prop :=
  ∀ (i : Instr) (s t : State), exec i s = .next t → i.opcode.cls ≠ .reserved →
    dest i ≠ some .pc ∨ (i.opcode = .je ∧ s.z = false) → t.pc.toNat = (s.pc.toNat + 1) % 2 ^ 16

/-! ### The step -/

/-- R120: a step of a running machine at a boundary whose counter names a word runs exec of the decoded
instruction, with `T`, `MAR`, `MDR` and `IR` as the fetch leaves them (R101 to R103). -/
def Obligations.StepRunsTheDecodedInstruction : Prop :=
  ∀ s : State, s.status = .running → s.phase = .fa → s.pc.toNat < 256 →
    step s = exec (decode (s.mem.readWord s.pc.toNat))
      { s with t := s.pc + 1, mar := s.pc, mdr := s.mem.readWord s.pc.toNat,
               ir := s.mem.readWord s.pc.toNat, phase := .dec }

/-- R186, R54 (the spec's decision D7, log 4): at an address of 256 or more the fetch faults; the counter,
`MAR` and `T` hold the address and nothing else changes. -/
def Obligations.FetchOutOfRangeFaults : Prop :=
  ∀ s : State, s.status = .running → s.phase = .fa → 256 ≤ s.pc.toNat →
    ∃ t, step s = .next t ∧ t.status = .faulted (.fetchOutOfRange s.pc) ∧
      (∀ q, t.readReg q = s.readReg q) ∧ (∀ a, t.mem.readWord a = s.mem.readWord a) ∧
      t.mar = s.pc ∧ t.t = s.pc ∧ t.ir = s.ir ∧ t.mdr = s.mdr ∧ t.phase = .fw

/-- R185, R103 (state at the fault by the spec's decision D9, log 2): a fetched word of opcode 2 to 7
faults; the counter and `MAR` hold its address, `IR` and `MDR` the word, `T` the address plus one, and
no register or memory word changes. -/
def Obligations.DecodeFailureStateAfterAStep : Prop :=
  ∀ s : State, s.status = .running → s.phase = .fa → s.pc.toNat < 256 →
    2 ≤ (opcField (s.mem.readWord s.pc.toNat)).toNat →
    (opcField (s.mem.readWord s.pc.toNat)).toNat ≤ 7 →
    ∃ t, step s = .next t ∧ t.status = .faulted (.decodeFailure (s.mem.readWord s.pc.toNat)) ∧
      (∀ q, t.readReg q = s.readReg q) ∧ (∀ a, t.mem.readWord a = s.mem.readWord a) ∧
      t.ir = s.mem.readWord s.pc.toNat ∧ t.mdr = s.mem.readWord s.pc.toNat ∧
      t.mar = s.pc ∧ t.t = s.pc + 1 ∧ t.phase = .dec

/-- R35, R112, R193 (the spec's decision D11, log 2): a halted or faulted machine never changes again,
whatever the number of clock calls or instruction steps. -/
def Obligations.StoppedMachinesStayAsTheyAre : Prop :=
  ∀ (p : Config.OobPolicy) (s : State), s.endedWell ∨ s.endedBadly →
    stepWith p s = .next s ∧ ∀ n, ticksWith p n s = .next s

/-- R37: what an instruction does to the registers, the memory and the status does not depend on what
the latches held at the boundary. -/
def Obligations.LatchesAreHiddenFromInstructions : Prop :=
  ∀ (p : Config.OobPolicy) (s₁ s₂ t₁ : State), s₁.regs = s₂.regs → s₁.mem = s₂.mem →
    s₁.status = s₂.status → s₁.phase = .fa → s₂.phase = .fa → stepWith p s₁ = .next t₁ →
    ∃ t₂, stepWith p s₂ = .next t₂ ∧ t₁.regs = t₂.regs ∧ t₁.mem = t₂.mem ∧ t₁.status = t₂.status ∧
      t₁.phase = t₂.phase

/-- R66: after `st` the fetch of the next instruction reads the memory the store left: a store to the
next address supplies the next instruction, with no barrier. -/
def Obligations.AStoreIsSeenByTheNextFetch : Prop :=
  ∀ (s : State) (ra : Reg) (addr : Byte), s.status = .running → s.phase = .fa → s.pc.toNat < 255 →
    decode (s.mem.readWord s.pc.toNat) = .st ra addr →
    ∃ (t : State) (w : Word), step s = .next t ∧
      w = (if addr.toNat = s.pc.toNat + 1 then (if ra = .pc then s.pc + 1 else s.readReg ra)
        else s.mem.readWord (s.pc.toNat + 1)) ∧
      step t = exec (decode w) { t with t := t.pc + 1, mar := t.pc, mdr := w, ir := w, phase := .dec }

/-- The interface's placed word is fetched and run by the very next step, from every state (log 19). -/
def Obligations.APlacedWordIsRunByTheNextStep : Prop :=
  ∀ (s : State) (w : Nat),
    step (s.withFetchWord 16 w) =
      exec (decode (BitVec.ofNat 16 w))
        { s.withFetchWord 16 w with
          t := (s.withFetchWord 16 w).pc + 1, mar := (s.withFetchWord 16 w).pc,
          mdr := BitVec.ofNat 16 w, ir := BitVec.ofNat 16 w, phase := .dec }

/-! ### The clock step -/

/-- R101: Fetch-Address copies the counter into `T` and goes to Fetch-Word; nothing else changes. -/
def Obligations.FetchAddressLatchesTheProgramCounter : Prop :=
  ∀ (p : Config.OobPolicy) (s : State), s.status = .running → s.phase = .fa →
    tickWith p s = .next { s with t := s.readReg .pc, phase := .fw }

/-- R102 (the range check is the spec's decision D7, log 4): Fetch-Word latches `MAR`, reads `MDR` and
puts the incremented counter in `T`, the counter itself unchanged; an address without a word faults. -/
def Obligations.FetchWordReadsMemory : Prop :=
  ∀ (p : Config.OobPolicy) (s : State), s.status = .running → s.phase = .fw →
    (∀ w, memRead p s.mem s.t = some w →
      tickWith p s = .next { s with mar := s.t, mdr := w, t := s.pc + 1, phase := .dec }) ∧
    (memRead p s.mem s.t = none →
      tickWith p s = .next { s with mar := s.t, status := .faulted (.fetchOutOfRange s.t) })

/-- R103 to R105, R78 (order of commit and operand D6, latching D19, logs 10 and 15): Decode latches `IR`,
faults on a reserved opcode with the counter as it was, and otherwise commits the counter, latches the
second operand of `mov`, `add`, `cmp`, the address of `ld`, `st`, and chooses the next state. -/
def Obligations.DecodeCommitsAndDispatches : Prop :=
  ∀ (p : Config.OobPolicy) (s : State), s.status = .running → s.phase = .dec →
    ∃ t, tickWith p s = .next t ∧ t.ir = s.mdr ∧ t.mar = s.mar ∧ t.mdr = s.mdr ∧ t.mem = s.mem ∧
      (∀ q, q ≠ .pc → t.readReg q = s.readReg q) ∧
      ((decode s.mdr).opcode.cls = .reserved →
        t.status = .faulted (.decodeFailure s.mdr) ∧ t.phase = .dec ∧ t.pc = s.pc ∧ t.t = s.t) ∧
      ((decode s.mdr).opcode.cls ≠ .reserved → t.status = .running ∧ t.pc = s.t) ∧
      ((decode s.mdr).opcode.cls = .rr →
        t.phase = .exe ∧
        t.t = if Reg.ofCode (rbField s.mdr) = .pc then s.t else s.readReg (Reg.ofCode (rbField s.mdr))) ∧
      ((decode s.mdr).opcode.cls = .mem → t.phase = .fo ∧ t.t.toNat = (imm8Field s.mdr).toNat) ∧
      ((decode s.mdr).opcode.cls = .other → t.phase = .exe ∧ t.t = s.t)

/-- R106: Fetch-Operand of `ld` and `st` latches `MAR`, reads memory for a load alone, passes the address
through, and goes to Execute; in a state of the cycle the address is always in range. -/
def Obligations.FetchOperandLatchesTheAddress : Prop :=
  ∀ (p : Config.OobPolicy) (s : State), s.status = .running → s.phase = .fo → s.phaseInv p →
    s.t.toNat < 256 ∧
    ((decode s.ir).opcode = .ld ∧
        tickWith p s = .next { s with mar := s.t, mdr := s.mem.readWord s.t.toNat, phase := .exe } ∨
      (decode s.ir).opcode = .st ∧ tickWith p s = .next { s with mar := s.t, phase := .exe })

/-- R107, R108, R109 (the line of `mov` is the spec's decision D1, log 5; `hlt` D10, log 14): Execute puts
each instruction's result in `T`, changes no memory and no register but the flags for `cmp`, and goes
to Write-Back; `hlt` changes the status alone. -/
def Obligations.ExecuteComputesTheResult : Prop :=
  ∀ (p : Config.OobPolicy) (s : State), s.status = .running → s.phase = .exe →
    (decode s.ir).opcode.cls ≠ .reserved →
    ∃ t, tickWith p s = .next t ∧ t.ir = s.ir ∧ t.mar = s.mar ∧ t.mdr = s.mdr ∧ t.mem = s.mem ∧
      (∀ q, q ≠ .flags → t.readReg q = s.readReg q) ∧
      ((decode s.ir).opcode ≠ .cmp → t.readReg .flags = s.readReg .flags) ∧
      (decode s.ir = .hlt → t.status = .halted ∧ t.phase = .exe ∧ t.t = s.t) ∧
      (decode s.ir ≠ .hlt → t.status = .running ∧ t.phase = .wb) ∧
      (∀ ra rb, decode s.ir = .mov ra rb → t.t = s.t) ∧
      (∀ ra rb, decode s.ir = .add ra rb → t.t = s.readReg ra + s.t) ∧
      (∀ ra rb, decode s.ir = .cmp ra rb → t.t = s.readReg ra - s.t ∧
        t.z = decide (s.readReg ra = s.t) ∧ t.n = (s.readReg ra - s.t).getLsbD 15 ∧
        ∀ k, k < 14 → (t.readReg .flags).getLsbD k = (s.readReg .flags).getLsbD k) ∧
      (∀ ra imm, decode s.ir = .ldl ra imm → t.t.toNat = imm.toNat) ∧
      (∀ ra imm, decode s.ir = .ldh ra imm → t.t.toNat = imm.toNat * 256) ∧
      (∀ addr, decode s.ir = .je addr ∨ decode s.ir = .jmp addr → t.t.toNat = addr.toNat) ∧
      (∀ ra addr, decode s.ir = .ld ra addr → t.t = s.mdr) ∧
      (∀ ra addr, decode s.ir = .st ra addr → t.t = s.readReg ra)

/-- R110, R111: Write-Back commits `T` per instruction: `st` to memory at `MAR`, `ldl` and `ldh` ORed
into `ra`, `je` to the counter when the flag as it stands is set, `cmp` nothing, the others over their
destination; then Fetch-Address. The latches and the flags tested do not change. -/
def Obligations.WriteBackCommitsTheResult : Prop :=
  ∀ (p : Config.OobPolicy) (s : State), s.status = .running → s.phase = .wb → s.phaseInv p →
    ∃ t, tickWith p s = .next t ∧ t.phase = .fa ∧ t.status = .running ∧
      t.t = s.t ∧ t.ir = s.ir ∧ t.mar = s.mar ∧ t.mdr = s.mdr ∧
      (∀ q, t.readReg q =
        match decode s.ir with
        | .mov ra _ => if q = ra then s.t else s.readReg q
        | .add ra _ => if q = ra then s.t else s.readReg q
        | .ld ra _ => if q = ra then s.t else s.readReg q
        | .ldl ra _ => if q = ra then s.readReg ra ||| s.t else s.readReg q
        | .ldh ra _ => if q = ra then s.readReg ra ||| s.t else s.readReg q
        | .jmp _ => if q = .pc then s.t else s.readReg q
        | .je _ => if q = .pc ∧ s.z = true then s.t else s.readReg q
        | _ => s.readReg q) ∧
      ∀ a, t.mem.readWord a =
        if (decode s.ir).opcode = .st ∧ a = s.mar.toNat then s.t else s.mem.readWord a

/-- R80: Write-Back writes no register but the destination select: register 7 for `je` and `jmp`, `ra` for
`mov`, `add`, `ldl`, `ldh`, `ld`, and none for `cmp` and `st`; `hlt` has no Write-Back step. -/
def Obligations.WriteBackWritesOnlyTheDestinationSelect : Prop :=
  (∀ (p : Config.OobPolicy) (s t : State) (q : Reg), s.status = .running → s.phase = .wb →
    tickWith p s = .next t → dest (decode s.ir) ≠ some q → t.readReg q = s.readReg q) ∧
  (∀ addr, dest (.je addr) = some .pc ∧ dest (.jmp addr) = some .pc) ∧
  (∀ ra rb imm, dest (.mov ra rb) = some ra ∧ dest (.add ra rb) = some ra ∧ dest (.ldl ra imm) = some ra ∧
    dest (.ldh ra imm) = some ra ∧ dest (.ld ra imm) = some ra ∧ dest (.cmp ra rb) = none ∧
    dest (.st ra imm) = none) ∧
  dest .hlt = none ∧
  ∀ (p : Config.OobPolicy) (s : State), decode s.ir = .hlt → s.status = .running → s.phase = .exe →
    tickWith p s = .next { s with status := .halted }

/-- R100: the transitions of the cycle, with the fetch fault of R102 (the spec's decision D7, log 4), the
decode failure of R103 and the halt of R109 where there is none. -/
def Obligations.TheCycleFollowsItsTransitions : Prop :=
  State.reset.phase = .fa ∧
  ∀ (p : Config.OobPolicy) (s t : State), s.coherent p → s.status = .running → tickWith p s = .next t →
    (s.phase = .fa → t.phase = .fw ∧ t.status = .running) ∧
    (s.phase = .fw → resolveAddr p s.pc ≠ none → t.phase = .dec ∧ t.status = .running) ∧
    (s.phase = .fw → resolveAddr p s.pc = none → t.status = .faulted (.fetchOutOfRange s.pc)) ∧
    (s.phase = .dec → (decode s.mdr).opcode = .ld ∨ (decode s.mdr).opcode = .st →
      t.phase = .fo ∧ t.status = .running) ∧
    (s.phase = .dec → (decode s.mdr).opcode.cls = .reserved → t.status = .faulted (.decodeFailure s.mdr)) ∧
    (s.phase = .dec → (decode s.mdr).opcode.cls = .rr ∨ (decode s.mdr).opcode.cls = .other →
      t.phase = .exe ∧ t.status = .running) ∧
    (s.phase = .fo → t.phase = .exe ∧ t.status = .running) ∧
    (s.phase = .exe → decode s.ir ≠ .hlt → t.phase = .wb ∧ t.status = .running) ∧
    (s.phase = .exe → decode s.ir = .hlt → t.status = .halted) ∧
    (s.phase = .wb → t.phase = .fa ∧ t.status = .running)

/-! ### The two levels agree -/

/-- R121, R113: from every running state at a boundary, the instruction's number of clock steps reaches
the very state the instruction step answers, latches included, and that state is a boundary or a stop. -/
def Obligations.TickAndStepAgree : Prop :=
  ∀ (p : Config.OobPolicy) (s : State), s.status = .running → s.phase = .fa →
    ticksWith p (clockStepsAt p s) s = stepWith p s ∧
    ∃ t, stepWith p s = .next t ∧ (t.status = .running → t.phase = .fa)

/-- R113, R227: `clockStepsAt` clock steps end the instruction, at a boundary or a stop; any fewer leave it
running inside the instruction; and the counts of the table, `hlt` four by C2 and D10 (log 14), the
decode failure three by D9 (log 2), the fetch fault two by D7 (log 4). -/
def Obligations.ClockStepCountsAreExact : Prop :=
  (∀ (p : Config.OobPolicy) (s : State), s.status = .running → s.phase = .fa →
    (∃ t, ticksWith p (clockStepsAt p s) s = .next t ∧ (t.status = .running → t.phase = .fa)) ∧
    ∀ k, 0 < k → k < clockStepsAt p s →
      ∃ t, ticksWith p k s = .next t ∧ t.status = .running ∧ t.phase ≠ .fa) ∧
  ∀ (p : Config.OobPolicy) (s : State),
    (∀ w, memRead p s.mem s.pc = some w →
      clockStepsAt p s =
        if 2 ≤ (opcField w).toNat ∧ (opcField w).toNat ≤ 7 then 3
        else if (opcField w).toNat = 13 ∨ (opcField w).toNat = 14 then 6
        else if (opcField w).toNat = 15 then 4 else 5) ∧
    (memRead p s.mem s.pc = none → clockStepsAt p s = 2)

/-- R120, log 1 (DESIGN CHOICE): a step from inside an instruction gives what clock calls up to the next
boundary give. -/
def Obligations.AStepFinishesTheInstructionInProgress : Prop :=
  ∀ (p : Config.OobPolicy) (s : State), s.coherent p → s.status = .running → s.phase ≠ .fa →
    ∃ (n : Nat) (t : State), 0 < n ∧ n ≤ 5 ∧ stepWith p s = .next t ∧ ticksWith p n s = .next t ∧
      (t.status = .running → t.phase = .fa) ∧
      ∀ (k : Nat) (u : State), 0 < k → k < n → ticksWith p k s = .next u →
        u.status = .running ∧ u.phase ≠ .fa

/-! ### Invariants -/

/-- The machine after reset, and after the load of any image the loader accepts, satisfies the invariant
(R42, R210; the start phase and status are the spec's decision D8, log 13). -/
def Obligations.ResetAndLoadAreCoherent : Prop :=
  ∀ p : Config.OobPolicy, State.reset.coherent p ∧
    ∀ (image : List Word) (s : State), loadImage image = .ok s → s.coherent p

/-- Every clock step keeps the invariant, under either policy: canonical memory, latches that agree with
the phase (R101 to R107), and a stopped machine that stands where R109, R185 and R186 say, by the spec's
decisions D7, D9, D10 and D19 (logs 4, 2, 14, 15). -/
def Obligations.EveryTickKeepsCoherence : Prop :=
  ∀ (p : Config.OobPolicy) (s s' : State), s.coherent p → tickWith p s = .next s' → s'.coherent p

/-- Every step of the machine keeps the invariant, which rests on the decisions named at
`EveryTickKeepsCoherence`; from inside an instruction a step is the model's choice (log 1). -/
def Obligations.EveryStepKeepsCoherence : Prop :=
  ∀ s s' : State, s.coherent Config.oobPolicy → Sys2Proof.Machine.step s = .next s' →
    s'.coherent Config.oobPolicy

/-- R112, R187: from a state of the invariant every clock step and every instruction step answers a next
state; the model's own stops (log 17) are not met. -/
def Obligations.CoherentStatesNeverStop : Prop :=
  ∀ (p : Config.OobPolicy) (s : State), s.coherent p →
    (∃ t, tickWith p s = .next t) ∧ ∃ t, stepWith p s = .next t

/-- R123, R185, R186, R192: in every reachable state the machine is running, halted after a `hlt`, or
faulted with the counter at the address of the word or fetch that faulted; and its next clock call
answers. The counter at a decode failure is the spec's decision D9 (log 2), the fetch fault D7 (log 4). -/
def Obligations.ReachableStatesEndAsTheSpecSays : Prop :=
  ∀ (p : Config.OobPolicy) (s : State), Reachable p s →
    (∃ t, tickWith p s = .next t) ∧
    (s.endedWell → decode s.ir = .hlt) ∧
    (∀ w, s.status = .faulted (.decodeFailure w) →
      2 ≤ (opcField w).toNat ∧ (opcField w).toNat ≤ 7 ∧ memRead p s.mem s.pc = some w) ∧
    (∀ a, s.status = .faulted (.fetchOutOfRange a) → p = .fault ∧ s.pc = a ∧ 256 ≤ a.toNat)

/-! ### Reset and the host -/

/-- R42 (the phase and the status are the spec's decision D8, log 13): every value after reset. -/
def Obligations.ResetValues : Prop :=
  (∀ q, State.reset.readReg q = 0) ∧ State.reset.t = 0 ∧ State.reset.ir = 0 ∧ State.reset.mar = 0 ∧
    State.reset.mdr = 0 ∧ State.reset.phase = .fa ∧ State.reset.status = .running ∧
    ∀ a, State.reset.mem.readWord a = 0

/-- R60, R42 (refusing a longer image is the spec's decision D13, log 19): word `i` of the image is at
address `i`, the rest of memory is 0, everything else is as after reset; more than 256 words are
refused. -/
def Obligations.LoadedImagesStandAtAddressZero : Prop :=
  ∀ image : List Word,
    (image.length ≤ 256 → ∃ s, loadImage image = .ok s ∧
      (∀ a, s.mem.readWord a = image.getD a 0) ∧ { s with mem := State.reset.mem } = State.reset) ∧
    (256 < image.length → loadImage image = .error .tooLong)

/-- R56 (little-endian is the spec's decision D12, log 18): the low byte of each word comes first in the
default order, and in either order the file of an image reads back as that image. -/
def Obligations.ImageFilesReadBack : Prop :=
  (∀ b0 b1 : Byte, (wordOfBytes Config.imageByteOrder b0 b1).toNat = b0.toNat + 256 * b1.toNat) ∧
  ∀ (order : Config.ByteOrder) (image : List Word), wordsOfBytes order (bytesOfWords order image) = .ok image

/-- R122, R62, R123, R181, R189: the driving loop is repeated clock calls, and the host reads the result
cell of a halted machine and of no other. -/
def Obligations.DrivingLoopAndReadBack : Prop :=
  (∀ (n : Nat) (s : State), drive n s = ticksWith Config.oobPolicy n s) ∧
  ∀ (s : State) (v : Word), hostResult s = some v ↔ s.endedWell ∧ v = s.mem.readWord 0x64
end

