-- ==== Sys2Proof/Laws/Encoding.lean ====
section
/-! SUPPORT. The fields of an encoded word, format by format, and the codes of registers and opcodes. -/

namespace Sys2Proof

@[simp] theorem Reg.ofCode_code (r : Reg) : Reg.ofCode r.code = r := by cases r <;> rfl

@[simp] theorem Reg.code_ofCode (c : BitVec 3) : (Reg.ofCode c).code = c := by
  revert c; decide

@[simp] theorem Opcode.ofField_field (o : Opcode) : Opcode.ofField o.field = o := by cases o <;> rfl

@[simp] theorem Opcode.field_ofField (b : BitVec 4) : (Opcode.ofField b).field = b := by
  revert b; decide

/-- The bits of the word of format RI: opcode at 14:11, `ra` at 10:8, `imm8` at 7:0 (R74). -/
theorem getLsbD_encodeRI (o : Opcode) (ra : Reg) (imm : Byte) (i : Nat) :
    (encodeRI o ra imm).getLsbD i =
      if i < 8 then imm.getLsbD i else if i < 11 then ra.code.getLsbD (i - 8)
      else o.field.getLsbD (i - 11) := by
  unfold encodeRI
  rw [BitVec.getLsbD_append, BitVec.getLsbD_append, BitVec.getLsbD_append]
  by_cases h8 : i < 8
  · simp [h8]
  · by_cases h11 : i < 11
    · simp [h8, h11, show i - 8 < 3 by omega]
    · by_cases h15 : i < 15
      · simp only [h8, h11, show ¬ i - 8 < 3 by omega, show i - 8 - 3 = i - 11 by omega,
          show i - 11 < 4 by omega, if_true, if_false]
      · simp [h8, h11, show ¬ i - 8 < 3 by omega, show ¬ i - 8 - 3 < 4 by omega,
          BitVec.getLsbD_of_ge o.field (i - 11) (by omega)]

/-- Format RR is format RI with `rb` above five zero bits (R73, R79). -/
theorem encodeRR_eq (o : Opcode) (ra rb : Reg) : encodeRR o ra rb = encodeRI o ra (rb.code ++ 0#5) := by
  cases o <;> cases ra <;> cases rb <;> rfl

/-- Format J is format RI with a zero register field (R75). -/
theorem encodeJ_eq (o : Opcode) (addr : Byte) : encodeJ o addr = encodeRI o .r0 addr := rfl

/-- Format N is format RI with zero operands (R75). -/
theorem encodeN_eq (o : Opcode) : encodeN o = encodeRI o .r0 0 := by cases o <;> rfl

theorem opcField_encodeRI (o : Opcode) (ra : Reg) (imm : Byte) : opcField (encodeRI o ra imm) = o.field := by
  apply BitVec.eq_of_getLsbD_eq
  intro i hi
  rw [opcField, BitVec.getLsbD_extractLsb', getLsbD_encodeRI]
  simp [hi, show ¬ 11 + i < 8 by omega, show ¬ 11 + i < 11 by omega]

theorem raField_encodeRI (o : Opcode) (ra : Reg) (imm : Byte) : raField (encodeRI o ra imm) = ra.code := by
  apply BitVec.eq_of_getLsbD_eq
  intro i hi
  rw [raField, BitVec.getLsbD_extractLsb', getLsbD_encodeRI]
  simp [hi, show ¬ 8 + i < 8 by omega, show 8 + i < 11 by omega]

theorem imm8Field_encodeRI (o : Opcode) (ra : Reg) (imm : Byte) : imm8Field (encodeRI o ra imm) = imm := by
  apply BitVec.eq_of_getLsbD_eq
  intro i hi
  rw [imm8Field, BitVec.getLsbD_extractLsb', getLsbD_encodeRI]
  simp [hi]

theorem topField_encodeRI (o : Opcode) (ra : Reg) (imm : Byte) : topField (encodeRI o ra imm) = 0 := by
  apply BitVec.eq_of_getLsbD_eq
  intro i hi
  have h0 : i = 0 := by omega
  subst h0
  rw [topField, BitVec.getLsbD_extractLsb', getLsbD_encodeRI]
  simp [-BitVec.getLsbD_eq_getElem]

theorem opcField_encodeRR (o : Opcode) (ra rb : Reg) : opcField (encodeRR o ra rb) = o.field := by
  rw [encodeRR_eq, opcField_encodeRI]

theorem raField_encodeRR (o : Opcode) (ra rb : Reg) : raField (encodeRR o ra rb) = ra.code := by
  rw [encodeRR_eq, raField_encodeRI]

theorem rbField_encodeRR (o : Opcode) (ra rb : Reg) : rbField (encodeRR o ra rb) = rb.code := by
  cases o <;> cases ra <;> cases rb <;> rfl

theorem topField_encodeRR (o : Opcode) (ra rb : Reg) : topField (encodeRR o ra rb) = 0 := by
  rw [encodeRR_eq, topField_encodeRI]

/-- The bits of a reserved word: bit 15, opcode, bits 10:0 (R82). -/
theorem getLsbD_encodeReserved (o : Opcode) (top : BitVec 1) (low : BitVec 11) (i : Nat) :
    (encodeReserved o top low).getLsbD i =
      if i < 11 then low.getLsbD i else if i < 15 then o.field.getLsbD (i - 11)
      else top.getLsbD (i - 15) := by
  unfold encodeReserved
  rw [BitVec.getLsbD_append, BitVec.getLsbD_append]
  by_cases h11 : i < 11
  · simp [h11]
  · by_cases h15 : i < 15
    · simp [h11, h15, show i - 11 < 4 by omega]
    · simp only [h11, h15, show ¬ i - 11 < 4 by omega, if_false]
      rw [show i - 11 - 4 = i - 15 by omega]

theorem opcField_encodeReserved (o : Opcode) (top : BitVec 1) (low : BitVec 11) :
    opcField (encodeReserved o top low) = o.field := by
  apply BitVec.eq_of_getLsbD_eq
  intro i hi
  rw [opcField, BitVec.getLsbD_extractLsb', getLsbD_encodeReserved]
  simp [hi, show ¬ 11 + i < 11 by omega, show 11 + i < 15 by omega]

theorem topField_encodeReserved (o : Opcode) (top : BitVec 1) (low : BitVec 11) :
    topField (encodeReserved o top low) = top := by
  apply BitVec.eq_of_getLsbD_eq
  intro i hi
  have h0 : i = 0 := by omega
  subst h0
  rw [topField, BitVec.getLsbD_extractLsb', getLsbD_encodeReserved]
  simp

theorem lowField_encodeReserved (o : Opcode) (top : BitVec 1) (low : BitVec 11) :
    lowField (encodeReserved o top low) = low := by
  apply BitVec.eq_of_getLsbD_eq
  intro i hi
  rw [lowField, BitVec.getLsbD_extractLsb', getLsbD_encodeReserved]
  simp [hi]

/-- Every encoded word carries its instruction's opcode (R76). -/
theorem opcField_encode (i : Instr) : opcField (encode i) = i.opcode.field := by
  cases i
  case mov | add | cmp => exact opcField_encodeRR ..
  case reserved2 | reserved3 | reserved4 | reserved5 | reserved6 | reserved7 =>
    exact opcField_encodeReserved ..
  case ldl | ldh | ld | st => exact opcField_encodeRI _ _ _
  case je => exact opcField_encodeRI .je .r0 _
  case jmp => exact opcField_encodeRI .jmp .r0 _
  case hlt => rfl

/-- The instruction a word decodes to has the opcode of its field (R77). -/
theorem opcode_decode (w : Word) : (decode w).opcode = Opcode.ofField (opcField w) := by
  unfold decode
  cases Opcode.ofField (opcField w) <;> rfl

end Sys2Proof
end

