-- ==== Sys2Proof/Laws/Memory.lean ====
section
/-! SUPPORT. The laws of memory: read after write, the canonical form and its uniqueness, and what an
access at a 16-bit address can do. -/

namespace Sys2Proof.Machine

open Sys2Proof

@[simp] theorem Memory.readWord_nil (a : Nat) : Memory.readWord [] a = 0 := rfl

theorem Memory.readWord_cons (b : Nat) (v : Word) (m : Memory) (a : Nat) :
    Memory.readWord ((b, v) :: m) a = if a = b then v else Memory.readWord m a := rfl

/-- Clearing an address makes it read 0 and leaves every other address. -/
theorem Memory.readWord_clearWord (m : Memory) (a b : Nat) :
    (m.clearWord a).readWord b = if b = a then 0 else m.readWord b := by
  induction m with
  | nil => simp [Memory.clearWord]
  | cons c m ih =>
    obtain ⟨k, v⟩ := c
    simp only [Memory.clearWord] at ih ⊢
    by_cases hk : k = a <;> by_cases hb : b = a <;> by_cases hbk : b = k <;>
      simp_all [Memory.readWord_cons]

/-- Placing a word at an address makes it read that word, if no entry for it stands before. -/
theorem Memory.readWord_placeWord (m : Memory) (a : Nat) (v : Word) (b : Nat)
    (h : ∀ c ∈ m, c.1 ≠ a) :
    (m.placeWord a v).readWord b = if b = a then v else m.readWord b := by
  induction m with
  | nil => simp [Memory.placeWord, Memory.readWord_cons]
  | cons c m ih =>
    obtain ⟨k, u⟩ := c
    have hk : k ≠ a := h _ (List.mem_cons_self ..)
    have ih' := ih fun c hc => h c (List.mem_cons_of_mem _ hc)
    by_cases hlt : a < k
    · simp [Memory.placeWord, hlt, Memory.readWord_cons]
    · by_cases hb : b = a
      · subst hb
        simp [Memory.placeWord, hlt, Memory.readWord_cons, ih', Ne.symm hk]
      · simp [Memory.placeWord, hlt, Memory.readWord_cons, ih', hb]

theorem Memory.clearWord_no_entry (m : Memory) (a : Nat) : ∀ c ∈ m.clearWord a, c.1 ≠ a := by
  intro c hc
  simpa [Memory.clearWord] using (List.mem_filter.mp hc).2

/-- Everything a write does to a read: the address written gives the value, every other address what it
gave before (R53). It holds of every memory, canonical or not. -/
theorem Memory.readWord_writeWord (m : Memory) (a : Nat) (v : Word) (b : Nat) :
    (m.writeWord a v).readWord b = if b = a then v else m.readWord b := by
  unfold Memory.writeWord
  split
  · next h => rw [Memory.readWord_clearWord, h]
  · rw [Memory.readWord_placeWord _ _ _ _ (m.clearWord_no_entry a), Memory.readWord_clearWord]
    split <;> rfl

/-! ### The canonical form -/

theorem Memory.wfFrom_cons (lo a : Nat) (v : Word) (m : Memory) :
    Memory.wfFrom lo ((a, v) :: m) = true ↔
      lo ≤ a ∧ a < Config.memWords ∧ v ≠ 0 ∧ Memory.wfFrom (a + 1) m = true := by
  simp [Memory.wfFrom, and_assoc]

theorem Memory.wfFrom_mono {lo lo' : Nat} (h : lo' ≤ lo) {m : Memory} (hm : Memory.wfFrom lo m = true) :
    Memory.wfFrom lo' m = true := by
  cases m with
  | nil => rfl
  | cons c m =>
    obtain ⟨a, v⟩ := c
    rw [Memory.wfFrom_cons] at hm ⊢
    exact ⟨by omega, hm.2⟩

theorem Memory.wfFrom_clearWord (m : Memory) (lo a : Nat) (hm : Memory.wfFrom lo m = true) :
    Memory.wfFrom lo (m.clearWord a) = true := by
  induction m generalizing lo with
  | nil => rfl
  | cons c m ih =>
    obtain ⟨k, v⟩ := c
    rw [Memory.wfFrom_cons] at hm
    have ih' := ih _ hm.2.2.2
    by_cases hk : k = a
    · have : Memory.clearWord ((k, v) :: m) a = Memory.clearWord m a := by simp [Memory.clearWord, hk]
      rw [this]
      exact Memory.wfFrom_mono (Nat.le_succ_of_le hm.1) ih'
    · have : Memory.clearWord ((k, v) :: m) a = (k, v) :: Memory.clearWord m a := by
        simp [Memory.clearWord, hk]
      rw [this, Memory.wfFrom_cons]
      exact ⟨hm.1, hm.2.1, hm.2.2.1, ih'⟩

theorem Memory.wfFrom_placeWord (m : Memory) (lo a : Nat) (v : Word) (hlo : lo ≤ a)
    (ha : a < Config.memWords) (hv : v ≠ 0) (hm : Memory.wfFrom lo m = true)
    (hno : ∀ c ∈ m, c.1 ≠ a) : Memory.wfFrom lo (m.placeWord a v) = true := by
  induction m generalizing lo with
  | nil => rw [Memory.placeWord, Memory.wfFrom_cons]; exact ⟨hlo, ha, hv, rfl⟩
  | cons c m ih =>
    obtain ⟨k, u⟩ := c
    rw [Memory.wfFrom_cons] at hm
    have hk : k ≠ a := hno _ (List.mem_cons_self ..)
    rw [Memory.placeWord]
    split
    · rw [Memory.wfFrom_cons, Memory.wfFrom_cons]
      exact ⟨hlo, ha, hv, by omega, hm.2.1, hm.2.2⟩
    · rw [Memory.wfFrom_cons]
      exact ⟨hm.1, hm.2.1, hm.2.2.1,
        ih _ (by omega) hm.2.2.2 fun c hc => hno c (List.mem_cons_of_mem _ hc)⟩

/-- A write to an address that exists keeps the canonical form. -/
theorem Memory.wf_writeWord (m : Memory) (a : Nat) (v : Word) (ha : a < Config.memWords)
    (hm : m.wf = true) : (m.writeWord a v).wf = true := by
  unfold Memory.writeWord Memory.wf
  split
  · exact m.wfFrom_clearWord 0 a hm
  · next h =>
    exact Memory.wfFrom_placeWord _ 0 a v (Nat.zero_le a) ha h (m.wfFrom_clearWord 0 a hm)
      (m.clearWord_no_entry a)

theorem Memory.readWord_below {m : Memory} {lo a : Nat} (hm : Memory.wfFrom lo m = true) (h : a < lo) :
    m.readWord a = 0 := by
  induction m generalizing lo with
  | nil => rfl
  | cons c m ih =>
    obtain ⟨k, v⟩ := c
    rw [Memory.wfFrom_cons] at hm
    rw [Memory.readWord_cons, if_neg (by omega)]
    exact ih hm.2.2.2 (by omega)

theorem Memory.ext_wfFrom {m n : Memory} {lo : Nat} (hm : Memory.wfFrom lo m = true)
    (hn : Memory.wfFrom lo n = true) (h : ∀ a, m.readWord a = n.readWord a) : m = n := by
  induction m generalizing n lo with
  | nil =>
    cases n with
    | nil => rfl
    | cons c n =>
      obtain ⟨k, v⟩ := c
      rw [Memory.wfFrom_cons] at hn
      have hk := h k
      rw [Memory.readWord_cons, if_pos rfl] at hk
      exact absurd hk.symm hn.2.2.1
  | cons c m ih =>
    obtain ⟨k, v⟩ := c
    rw [Memory.wfFrom_cons] at hm
    cases n with
    | nil =>
      have hk := h k
      rw [Memory.readWord_cons, if_pos rfl] at hk
      exact absurd hk hm.2.2.1
    | cons d n =>
      obtain ⟨j, u⟩ := d
      rw [Memory.wfFrom_cons] at hn
      have hj := h j
      have hk := h k
      simp only [Memory.readWord_cons, if_true] at hj hk
      have hjk : j = k := by
        rcases Nat.lt_trichotomy j k with hlt | heq | hgt
        · rw [if_neg (by omega), Memory.readWord_below hm.2.2.2 (by omega)] at hj
          exact absurd hj.symm hn.2.2.1
        · exact heq
        · rw [if_neg (by omega), Memory.readWord_below hn.2.2.2 (by omega)] at hk
          exact absurd hk hm.2.2.1
      subst hjk
      have huv : v = u := by simpa using hj
      subst huv
      have hmn : m = n := ih hm.2.2.2 hn.2.2.2 fun a => by
        by_cases ha : a = j
        · rw [ha, Memory.readWord_below hm.2.2.2 (by omega), Memory.readWord_below hn.2.2.2 (by omega)]
        · simpa [Memory.readWord_cons, ha] using h a
      rw [hmn]

/-- Canonical memories with equal contents are equal data. -/
theorem Memory.ext_wf {m n : Memory} (hm : m.wf = true) (hn : n.wf = true)
    (h : ∀ a, m.readWord a = n.readWord a) : m = n := Memory.ext_wfFrom hm hn h

/-- Loading an image below the end of memory keeps the canonical form. -/
theorem Memory.wf_loadWords (image : List Word) (a : Nat) (m : Memory)
    (ha : a + image.length ≤ Config.memWords) (hm : m.wf = true) :
    (Memory.loadWords a image m).wf = true := by
  induction image generalizing a m with
  | nil => exact hm
  | cons w ws ih =>
    rw [List.length_cons] at ha
    exact ih (a + 1) _ (by omega) (m.wf_writeWord a w (by omega) hm)

/-! ### Accesses at a 16-bit address -/

/-- An 8-bit address always exists (R172). -/
theorem zext16_toNat_lt (imm : Byte) : (zext16 imm).toNat < Config.memWords := by
  have := imm.isLt
  simp only [zext16, BitVec.toNat_setWidth, Config.memWords]
  omega

/-- A zero-extended field keeps its value (R81). -/
theorem zext16_toNat (imm : Byte) : (zext16 imm).toNat = imm.toNat := by
  have := imm.isLt
  simp only [zext16, BitVec.toNat_setWidth]
  omega

theorem resolveAddr_of_lt (p : Config.OobPolicy) {addr : Word} (h : addr.toNat < Config.memWords) :
    resolveAddr p addr = some addr.toNat := if_pos h

/-- Everything a resolved address can be (R54). -/
theorem resolveAddr_lt {p : Config.OobPolicy} {addr : Word} {a : Nat} (h : resolveAddr p addr = some a) :
    a < Config.memWords := by
  unfold resolveAddr at h
  split at h
  · next hlt => cases h; exact hlt
  · cases p
    · cases h
    · cases h; exact Nat.mod_lt _ (by decide)

/-- No access happens exactly at an address of 256 or more under the policy `fault` (R54). -/
theorem resolveAddr_eq_none (p : Config.OobPolicy) (addr : Word) :
    resolveAddr p addr = none ↔ p = .fault ∧ Config.memWords ≤ addr.toNat := by
  unfold resolveAddr
  split
  · simp; omega
  · next h =>
    cases p
    · simpa using h
    · simp

@[simp] theorem memRead_zext16 (p : Config.OobPolicy) (m : Memory) (imm : Byte) :
    memRead p m (zext16 imm) = some (m.readWord imm.toNat) := by
  simp [memRead, resolveAddr_of_lt p (zext16_toNat_lt imm), zext16_toNat]

@[simp] theorem memWrite_zext16 (p : Config.OobPolicy) (m : Memory) (imm : Byte) (v : Word) :
    memWrite p m (zext16 imm) v = some (m.writeWord imm.toNat v) := by
  simp [memWrite, resolveAddr_of_lt p (zext16_toNat_lt imm), zext16_toNat]

theorem memRead_eq_none (p : Config.OobPolicy) (m : Memory) (addr : Word) :
    memRead p m addr = none ↔ resolveAddr p addr = none := by
  simp [memRead]

/-- Everything a completed write does: one word that exists, and the canonical form is kept (R53). -/
theorem memWrite_cases {p : Config.OobPolicy} {m m' : Memory} {addr v : Word}
    (h : memWrite p m addr v = some m') :
    ∃ a, a < Config.memWords ∧ resolveAddr p addr = some a ∧ m' = m.writeWord a v := by
  unfold memWrite at h
  cases hr : resolveAddr p addr with
  | none => rw [hr] at h; cases h
  | some a => rw [hr] at h; cases h; exact ⟨a, resolveAddr_lt hr, rfl, rfl⟩

end Sys2Proof.Machine
end

