-- ==== Sys2Proof/Laws/State.lean ====
section
/-! SUPPORT. One lemma per field per update of the state, each true by rfl, so that no proof unfolds an
update of the record. -/

namespace Sys2Proof.Machine

open Sys2Proof

variable (s : State)

@[simp] theorem State.writeReg_regs (r : Reg) (v : Word) : (s.writeReg r v).regs = s.regs.write r v := rfl
@[simp] theorem State.writeReg_t (r : Reg) (v : Word) : (s.writeReg r v).t = s.t := rfl
@[simp] theorem State.writeReg_ir (r : Reg) (v : Word) : (s.writeReg r v).ir = s.ir := rfl
@[simp] theorem State.writeReg_mar (r : Reg) (v : Word) : (s.writeReg r v).mar = s.mar := rfl
@[simp] theorem State.writeReg_mdr (r : Reg) (v : Word) : (s.writeReg r v).mdr = s.mdr := rfl
@[simp] theorem State.writeReg_phase (r : Reg) (v : Word) : (s.writeReg r v).phase = s.phase := rfl
@[simp] theorem State.writeReg_status (r : Reg) (v : Word) : (s.writeReg r v).status = s.status := rfl
@[simp] theorem State.writeReg_mem (r : Reg) (v : Word) : (s.writeReg r v).mem = s.mem := rfl

@[simp] theorem State.runAlu_regs (m : AluMode) (a b : Word) : (s.runAlu m a b).regs = s.regs.write .flags (aluFlags m a b s.regs.flags) := rfl
@[simp] theorem State.runAlu_t (m : AluMode) (a b : Word) : (s.runAlu m a b).t = alu m a b := rfl
@[simp] theorem State.runAlu_ir (m : AluMode) (a b : Word) : (s.runAlu m a b).ir = s.ir := rfl
@[simp] theorem State.runAlu_mar (m : AluMode) (a b : Word) : (s.runAlu m a b).mar = s.mar := rfl
@[simp] theorem State.runAlu_mdr (m : AluMode) (a b : Word) : (s.runAlu m a b).mdr = s.mdr := rfl
@[simp] theorem State.runAlu_phase (m : AluMode) (a b : Word) : (s.runAlu m a b).phase = s.phase := rfl
@[simp] theorem State.runAlu_status (m : AluMode) (a b : Word) : (s.runAlu m a b).status = s.status := rfl
@[simp] theorem State.runAlu_mem (m : AluMode) (a b : Word) : (s.runAlu m a b).mem = s.mem := rfl

@[simp] theorem State.toPhase_regs (ph : Phase) : (s.toPhase ph).regs = s.regs := rfl
@[simp] theorem State.toPhase_t (ph : Phase) : (s.toPhase ph).t = s.t := rfl
@[simp] theorem State.toPhase_ir (ph : Phase) : (s.toPhase ph).ir = s.ir := rfl
@[simp] theorem State.toPhase_mar (ph : Phase) : (s.toPhase ph).mar = s.mar := rfl
@[simp] theorem State.toPhase_mdr (ph : Phase) : (s.toPhase ph).mdr = s.mdr := rfl
@[simp] theorem State.toPhase_phase (ph : Phase) : (s.toPhase ph).phase = ph := rfl
@[simp] theorem State.toPhase_status (ph : Phase) : (s.toPhase ph).status = s.status := rfl
@[simp] theorem State.toPhase_mem (ph : Phase) : (s.toPhase ph).mem = s.mem := rfl

@[simp] theorem State.commitPc_regs : (s.commitPc).regs = s.regs.write .pc (s.pc + 1) := rfl
@[simp] theorem State.commitPc_t : (s.commitPc).t = s.t := rfl
@[simp] theorem State.commitPc_ir : (s.commitPc).ir = s.ir := rfl
@[simp] theorem State.commitPc_mar : (s.commitPc).mar = s.mar := rfl
@[simp] theorem State.commitPc_mdr : (s.commitPc).mdr = s.mdr := rfl
@[simp] theorem State.commitPc_phase : (s.commitPc).phase = s.phase := rfl
@[simp] theorem State.commitPc_status : (s.commitPc).status = s.status := rfl
@[simp] theorem State.commitPc_mem : (s.commitPc).mem = s.mem := rfl

@[simp] theorem State.placeWord_regs (a : Nat) (v : Word) : (s.placeWord a v).regs = s.regs := rfl
@[simp] theorem State.placeWord_t (a : Nat) (v : Word) : (s.placeWord a v).t = s.t := rfl
@[simp] theorem State.placeWord_ir (a : Nat) (v : Word) : (s.placeWord a v).ir = s.ir := rfl
@[simp] theorem State.placeWord_mar (a : Nat) (v : Word) : (s.placeWord a v).mar = s.mar := rfl
@[simp] theorem State.placeWord_mdr (a : Nat) (v : Word) : (s.placeWord a v).mdr = s.mdr := rfl
@[simp] theorem State.placeWord_phase (a : Nat) (v : Word) : (s.placeWord a v).phase = s.phase := rfl
@[simp] theorem State.placeWord_status (a : Nat) (v : Word) : (s.placeWord a v).status = s.status := rfl
@[simp] theorem State.placeWord_mem (a : Nat) (v : Word) : (s.placeWord a v).mem = s.mem.writeWord a v := rfl

@[simp] theorem State.raise_regs (f : CoreFault) : (s.raise f).regs = s.regs := rfl
@[simp] theorem State.raise_t (f : CoreFault) : (s.raise f).t = s.t := rfl
@[simp] theorem State.raise_ir (f : CoreFault) : (s.raise f).ir = s.ir := rfl
@[simp] theorem State.raise_mar (f : CoreFault) : (s.raise f).mar = s.mar := rfl
@[simp] theorem State.raise_mdr (f : CoreFault) : (s.raise f).mdr = s.mdr := rfl
@[simp] theorem State.raise_phase (f : CoreFault) : (s.raise f).phase = s.phase := rfl
@[simp] theorem State.raise_status (f : CoreFault) : (s.raise f).status = .faulted f := rfl
@[simp] theorem State.raise_mem (f : CoreFault) : (s.raise f).mem = s.mem := rfl

@[simp] theorem State.halt_regs : (s.halt).regs = s.regs := rfl
@[simp] theorem State.halt_t : (s.halt).t = s.t := rfl
@[simp] theorem State.halt_ir : (s.halt).ir = s.ir := rfl
@[simp] theorem State.halt_mar : (s.halt).mar = s.mar := rfl
@[simp] theorem State.halt_mdr : (s.halt).mdr = s.mdr := rfl
@[simp] theorem State.halt_phase : (s.halt).phase = s.phase := rfl
@[simp] theorem State.halt_status : (s.halt).status = .halted := rfl
@[simp] theorem State.halt_mem : (s.halt).mem = s.mem := rfl

@[simp] theorem State.decodeFailure_regs (w : Word) : (s.decodeFailure w).regs = s.regs := rfl
@[simp] theorem State.decodeFailure_t (w : Word) : (s.decodeFailure w).t = s.t := rfl
@[simp] theorem State.decodeFailure_ir (w : Word) : (s.decodeFailure w).ir = s.ir := rfl
@[simp] theorem State.decodeFailure_mar (w : Word) : (s.decodeFailure w).mar = s.mar := rfl
@[simp] theorem State.decodeFailure_mdr (w : Word) : (s.decodeFailure w).mdr = s.mdr := rfl
@[simp] theorem State.decodeFailure_phase (w : Word) : (s.decodeFailure w).phase = .dec := rfl
@[simp] theorem State.decodeFailure_status (w : Word) : (s.decodeFailure w).status = .faulted (.decodeFailure w) := rfl
@[simp] theorem State.decodeFailure_mem (w : Word) : (s.decodeFailure w).mem = s.mem := rfl

@[simp] theorem State.fetched_regs (a w : Word) : (s.fetched a w).regs = s.regs := rfl
@[simp] theorem State.fetched_t (a w : Word) : (s.fetched a w).t = a + 1 := rfl
@[simp] theorem State.fetched_ir (a w : Word) : (s.fetched a w).ir = w := rfl
@[simp] theorem State.fetched_mar (a w : Word) : (s.fetched a w).mar = a := rfl
@[simp] theorem State.fetched_mdr (a w : Word) : (s.fetched a w).mdr = w := rfl
@[simp] theorem State.fetched_phase (a w : Word) : (s.fetched a w).phase = .dec := rfl
@[simp] theorem State.fetched_status (a w : Word) : (s.fetched a w).status = s.status := rfl
@[simp] theorem State.fetched_mem (a w : Word) : (s.fetched a w).mem = s.mem := rfl

@[simp] theorem State.fetchFault_regs (a : Word) : (s.fetchFault a).regs = s.regs := rfl
@[simp] theorem State.fetchFault_t (a : Word) : (s.fetchFault a).t = a := rfl
@[simp] theorem State.fetchFault_ir (a : Word) : (s.fetchFault a).ir = s.ir := rfl
@[simp] theorem State.fetchFault_mar (a : Word) : (s.fetchFault a).mar = a := rfl
@[simp] theorem State.fetchFault_mdr (a : Word) : (s.fetchFault a).mdr = s.mdr := rfl
@[simp] theorem State.fetchFault_phase (a : Word) : (s.fetchFault a).phase = .fw := rfl
@[simp] theorem State.fetchFault_status (a : Word) : (s.fetchFault a).status = .faulted (.fetchOutOfRange a) := rfl
@[simp] theorem State.fetchFault_mem (a : Word) : (s.fetchFault a).mem = s.mem := rfl

@[simp] theorem State.setMar_regs (v : Word) : (s.setMar v).regs = s.regs := rfl
@[simp] theorem State.setMar_t (v : Word) : (s.setMar v).t = s.t := rfl
@[simp] theorem State.setMar_ir (v : Word) : (s.setMar v).ir = s.ir := rfl
@[simp] theorem State.setMar_mar (v : Word) : (s.setMar v).mar = v := rfl
@[simp] theorem State.setMar_mdr (v : Word) : (s.setMar v).mdr = s.mdr := rfl
@[simp] theorem State.setMar_phase (v : Word) : (s.setMar v).phase = s.phase := rfl
@[simp] theorem State.setMar_status (v : Word) : (s.setMar v).status = s.status := rfl
@[simp] theorem State.setMar_mem (v : Word) : (s.setMar v).mem = s.mem := rfl
@[simp] theorem State.setMar_readReg (v : Word) (q : Reg) : (s.setMar v).readReg q = s.readReg q := rfl

@[simp] theorem State.setMdr_regs (v : Word) : (s.setMdr v).regs = s.regs := rfl
@[simp] theorem State.setMdr_t (v : Word) : (s.setMdr v).t = s.t := rfl
@[simp] theorem State.setMdr_ir (v : Word) : (s.setMdr v).ir = s.ir := rfl
@[simp] theorem State.setMdr_mar (v : Word) : (s.setMdr v).mar = s.mar := rfl
@[simp] theorem State.setMdr_mdr (v : Word) : (s.setMdr v).mdr = v := rfl
@[simp] theorem State.setMdr_phase (v : Word) : (s.setMdr v).phase = s.phase := rfl
@[simp] theorem State.setMdr_status (v : Word) : (s.setMdr v).status = s.status := rfl
@[simp] theorem State.setMdr_mem (v : Word) : (s.setMdr v).mem = s.mem := rfl
@[simp] theorem State.setMdr_readReg (v : Word) (q : Reg) : (s.setMdr v).readReg q = s.readReg q := rfl

@[simp] theorem State.setIr_regs (v : Word) : (s.setIr v).regs = s.regs := rfl
@[simp] theorem State.setIr_t (v : Word) : (s.setIr v).t = s.t := rfl
@[simp] theorem State.setIr_ir (v : Word) : (s.setIr v).ir = v := rfl
@[simp] theorem State.setIr_mar (v : Word) : (s.setIr v).mar = s.mar := rfl
@[simp] theorem State.setIr_mdr (v : Word) : (s.setIr v).mdr = s.mdr := rfl
@[simp] theorem State.setIr_phase (v : Word) : (s.setIr v).phase = s.phase := rfl
@[simp] theorem State.setIr_status (v : Word) : (s.setIr v).status = s.status := rfl
@[simp] theorem State.setIr_mem (v : Word) : (s.setIr v).mem = s.mem := rfl
@[simp] theorem State.setIr_readReg (v : Word) (q : Reg) : (s.setIr v).readReg q = s.readReg q := rfl

@[simp] theorem State.setMem_regs (v : Memory) : (s.setMem v).regs = s.regs := rfl
@[simp] theorem State.setMem_t (v : Memory) : (s.setMem v).t = s.t := rfl
@[simp] theorem State.setMem_ir (v : Memory) : (s.setMem v).ir = s.ir := rfl
@[simp] theorem State.setMem_mar (v : Memory) : (s.setMem v).mar = s.mar := rfl
@[simp] theorem State.setMem_mdr (v : Memory) : (s.setMem v).mdr = s.mdr := rfl
@[simp] theorem State.setMem_phase (v : Memory) : (s.setMem v).phase = s.phase := rfl
@[simp] theorem State.setMem_status (v : Memory) : (s.setMem v).status = s.status := rfl
@[simp] theorem State.setMem_mem (v : Memory) : (s.setMem v).mem = v := rfl
@[simp] theorem State.setMem_readReg (v : Memory) (q : Reg) : (s.setMem v).readReg q = s.readReg q := rfl

/-! ### Registers read through an update -/

@[simp] theorem State.writeReg_readReg (r : Reg) (v : Word) (q : Reg) :
    (s.writeReg r v).readReg q = (s.regs.write r v).read q := rfl
@[simp] theorem State.runAlu_readReg (m : AluMode) (a b : Word) (q : Reg) :
    (s.runAlu m a b).readReg q = (s.regs.write .flags (aluFlags m a b s.regs.flags)).read q := rfl
@[simp] theorem State.toPhase_readReg (ph : Phase) (q : Reg) : (s.toPhase ph).readReg q = s.readReg q := rfl
@[simp] theorem State.commitPc_readReg (q : Reg) :
    s.commitPc.readReg q = (s.regs.write .pc (s.pc + 1)).read q := rfl
@[simp] theorem State.placeWord_readReg (a : Nat) (v : Word) (q : Reg) :
    (s.placeWord a v).readReg q = s.readReg q := rfl
@[simp] theorem State.raise_readReg (f : CoreFault) (q : Reg) : (s.raise f).readReg q = s.readReg q := rfl
@[simp] theorem State.halt_readReg (q : Reg) : s.halt.readReg q = s.readReg q := rfl
@[simp] theorem State.decodeFailure_readReg (w : Word) (q : Reg) :
    (s.decodeFailure w).readReg q = s.readReg q := rfl
@[simp] theorem State.fetched_readReg (a w : Word) (q : Reg) : (s.fetched a w).readReg q = s.readReg q := rfl
@[simp] theorem State.fetchFault_readReg (a : Word) (q : Reg) :
    (s.fetchFault a).readReg q = s.readReg q := rfl

end Sys2Proof.Machine
end

