-- ==== Sys2Proof/Laws/Registers.lean ====
section
/-! SUPPORT. The laws of the register file and of the flags: read after write, extensionality, and the
bits a compare writes. -/

namespace Sys2Proof.Machine

open Sys2Proof

@[simp] theorem RegFile.read_r0 (f : RegFile) : f.read .r0 = f.r0 := rfl
@[simp] theorem RegFile.read_r1 (f : RegFile) : f.read .r1 = f.r1 := rfl
@[simp] theorem RegFile.read_r2 (f : RegFile) : f.read .r2 = f.r2 := rfl
@[simp] theorem RegFile.read_r3 (f : RegFile) : f.read .r3 = f.r3 := rfl
@[simp] theorem RegFile.read_x4 (f : RegFile) : f.read .x4 = f.x4 := rfl
@[simp] theorem RegFile.read_flags (f : RegFile) : f.read .flags = f.flags := rfl
@[simp] theorem RegFile.read_sp (f : RegFile) : f.read .sp = f.sp := rfl
@[simp] theorem RegFile.read_pc (f : RegFile) : f.read .pc = f.pc := rfl

/-- Everything a register write does (R12, R20). -/
theorem RegFile.read_write (f : RegFile) (r q : Reg) (v : Word) :
    (f.write r v).read q = if q = r then v else f.read q := by
  cases r <;> cases q <;> rfl

/-- A write changes no other entry (R20). -/
theorem RegFile.read_write_ne (f : RegFile) {r q : Reg} (v : Word) (h : q ≠ r) :
    (f.write r v).read q = f.read q := by
  rw [RegFile.read_write, if_neg h]

/-- No write is discarded (R20). -/
@[simp] theorem RegFile.read_write_same (f : RegFile) (r : Reg) (v : Word) : (f.write r v).read r = v := by
  rw [RegFile.read_write, if_pos rfl]

/-- Writing an entry its own value changes nothing. -/
@[simp] theorem RegFile.write_read (f : RegFile) (r : Reg) : f.write r (f.read r) = f := by
  cases r <;> rfl

@[simp] theorem RegFile.write_flags_self (f : RegFile) : f.write .flags f.flags = f := rfl

/-- The flags entry after a write. -/
theorem RegFile.write_flags (f : RegFile) (r : Reg) (v : Word) :
    (f.write r v).flags = if r = .flags then v else f.flags := by
  cases r <;> rfl

/-- The program counter after a write. -/
theorem RegFile.write_pc (f : RegFile) (r : Reg) (v : Word) :
    (f.write r v).pc = if r = .pc then v else f.pc := by
  cases r <;> rfl

@[simp] theorem RegFile.write_pc_flags (f : RegFile) (v : Word) : (f.write .pc v).flags = f.flags := rfl
@[simp] theorem RegFile.write_flags_pc (f : RegFile) (v : Word) : (f.write .flags v).pc = f.pc := rfl
@[simp] theorem RegFile.write_pc_pc (f : RegFile) (v : Word) : (f.write .pc v).pc = v := rfl
@[simp] theorem RegFile.write_flags_flags (f : RegFile) (v : Word) : (f.write .flags v).flags = v := rfl

/-- Register files that read alike are equal. -/
theorem RegFile.ext_read {f g : RegFile} (h : ∀ r, f.read r = g.read r) : f = g := by
  cases f; cases g
  rw [RegFile.mk.injEq]
  exact ⟨h .r0, h .r1, h .r2, h .r3, h .x4, h .flags, h .sp, h .pc⟩

@[simp] theorem State.pc_eq (s : State) : s.pc = s.regs.pc := rfl
theorem State.readReg_eq (s : State) (r : Reg) : s.readReg r = s.regs.read r := rfl
theorem State.z_eq (s : State) : s.z = zeroFlag s.regs.flags := rfl
theorem State.n_eq (s : State) : s.n = negFlag s.regs.flags := rfl

/-- Everything an operand read after the commit of the program counter can give: register 7 reads the
incremented counter, every other register its value (R29). -/
theorem State.commitPc_operand (s : State) (r : Reg) :
    s.commitPc.readReg r = if r = .pc then s.pc + 1 else s.readReg r := by
  cases r <;> rfl

/-! ### The ALU and the flags -/

/-- Every mode but compare leaves the flags (R114). -/
theorem aluFlags_pure {m : AluMode} (h : m ≠ .cmp) (a b flags : Word) : aluFlags m a b flags = flags := by
  cases m <;> first | rfl | exact absurd rfl h

@[simp] theorem aluFlags_nop (a b flags : Word) : aluFlags .nop a b flags = flags := rfl
@[simp] theorem aluFlags_add (a b flags : Word) : aluFlags .add a b flags = flags := rfl
@[simp] theorem aluFlags_inc (a b flags : Word) : aluFlags .inc a b flags = flags := rfl
@[simp] theorem aluFlags_cmp (a b flags : Word) : aluFlags .cmp a b flags = compareFlags flags (a - b) := rfl
@[simp] theorem alu_nop (a b : Word) : alu .nop a b = a := rfl
@[simp] theorem alu_add (a b : Word) : alu .add a b = a + b := rfl
@[simp] theorem alu_cmp (a b : Word) : alu .cmp a b = a - b := rfl
@[simp] theorem alu_inc (a b : Word) : alu .inc a b = a + 1 := rfl

/-- Everything a compare writes, bit by bit (R116). -/
theorem compareFlags_getLsbD (flags r : Word) (i : Nat) :
    (compareFlags flags r).getLsbD i =
      if i = 15 then r.getLsbD 15 else if i = 14 then decide (r = 0) else flags.getLsbD i := by
  rcases Nat.lt_or_ge i 16 with h | h
  · unfold compareFlags
    rw [BitVec.getLsbD_append, BitVec.getLsbD_append, BitVec.getLsbD_extractLsb']
    simp only [BitVec.getLsbD_ofBool, beq_eq_decide]
    by_cases h15 : i = 15
    · subst h15; simp
    · by_cases h14 : i = 14
      · subst h14; simp
      · simp [h15, h14, show i < 14 by omega]
  · rw [BitVec.getLsbD_of_ge _ _ h, if_neg (by omega), if_neg (by omega), BitVec.getLsbD_of_ge _ _ h]

/-- The negative flag after a compare (R116). -/
theorem negFlag_compareFlags (flags r : Word) : negFlag (compareFlags flags r) = r.getLsbD 15 := by
  rw [negFlag, Config.flagNBit, compareFlags_getLsbD, if_pos rfl]

/-- The zero flag after a compare (R116). -/
theorem zeroFlag_compareFlags (flags r : Word) : zeroFlag (compareFlags flags r) = decide (r = 0) := by
  rw [zeroFlag, Config.flagZBit, compareFlags_getLsbD, if_neg (by decide), if_pos rfl]

end Sys2Proof.Machine
end

