-- ==== Sys2Proof/Laws/Exec.lean ====
section
/-! SUPPORT. One equation per meaning: the next state each instruction answers, as updates whose fields
Laws/State.lean reads. Proofs about an instruction cite its equation and unfold nothing. -/

namespace Sys2Proof.Machine

open Sys2Proof Host

theorem exec_mov (ra rb : Reg) (s : State) :
    exec (.mov ra rb) s =
      .next (((s.commitPc.runAlu .nop (s.commitPc.readReg rb) 0).writeReg ra
        (s.commitPc.readReg rb)).toPhase .fa) := rfl

theorem exec_add (ra rb : Reg) (s : State) :
    exec (.add ra rb) s =
      .next (((s.commitPc.runAlu .add (s.commitPc.readReg ra) (s.commitPc.readReg rb)).writeReg ra
        (s.commitPc.readReg ra + s.commitPc.readReg rb)).toPhase .fa) := rfl

theorem exec_cmp (ra rb : Reg) (s : State) :
    exec (.cmp ra rb) s =
      .next ((s.commitPc.runAlu .cmp (s.commitPc.readReg ra) (s.commitPc.readReg rb)).toPhase .fa) := rfl

theorem exec_ldl (ra : Reg) (imm : Byte) (s : State) :
    exec (.ldl ra imm) s =
      .next (((s.commitPc.runAlu .nop (zext16 imm) 0).writeReg ra
        (s.commitPc.readReg ra ||| zext16 imm)).toPhase .fa) := rfl

theorem exec_ldh (ra : Reg) (imm : Byte) (s : State) :
    exec (.ldh ra imm) s =
      .next (((s.commitPc.runAlu .nop (immHigh imm) 0).writeReg ra
        (s.commitPc.readReg ra ||| immHigh imm)).toPhase .fa) := rfl

theorem exec_je (addr : Byte) (s : State) :
    exec (.je addr) s =
      .next ((if s.z then (s.commitPc.runAlu .nop (zext16 addr) 0).writeReg .pc (zext16 addr)
        else s.commitPc.runAlu .nop (zext16 addr) 0).toPhase .fa) := rfl

theorem exec_jmp (addr : Byte) (s : State) :
    exec (.jmp addr) s =
      .next (((s.commitPc.runAlu .nop (zext16 addr) 0).writeReg .pc (zext16 addr)).toPhase .fa) := rfl

theorem exec_ld (ra : Reg) (addr : Byte) (s : State) :
    exec (.ld ra addr) s =
      .next (((((s.commitPc.setMar (zext16 addr)).setMdr (s.mem.readWord addr.toNat)).runAlu .nop
        (s.mem.readWord addr.toNat) 0).writeReg ra (s.mem.readWord addr.toNat)).toPhase .fa) := by
  simp only [exec, execLd, memRead_zext16, State.commitPc_mem]
  rfl

theorem exec_st (ra : Reg) (addr : Byte) (s : State) :
    exec (.st ra addr) s =
      .next ((((s.commitPc.setMar (zext16 addr)).runAlu .nop (s.commitPc.readReg ra) 0).setMem
        (s.mem.writeWord addr.toNat (s.commitPc.readReg ra))).toPhase .fa) := by
  simp only [exec, execSt, memWrite_zext16, State.commitPc_mem, State.runAlu_mem, State.setMar_mem,
    State.runAlu_t, alu_nop]

theorem exec_hlt (s : State) : exec .hlt s = .next (s.commitPc.toPhase .exe).halt := rfl

/-- Every reserved opcode does the same thing with its own word (R82). -/
theorem exec_reserved {i : Instr} (h : i.opcode.cls = .reserved) (s : State) :
    exec i s = .next (s.decodeFailure (encode i)) := by
  cases i
  case reserved2 | reserved3 | reserved4 | reserved5 | reserved6 | reserved7 => rfl
  all_goals exact nomatch h

end Sys2Proof.Machine
end

