-- ==== Sys2Proof/Laws/PerInstr.lean ====
section
/-! SUPPORT. Per-instruction families named in LAWS.json: one lemma per constructor of `Instr`. -/

namespace Sys2Proof.Laws.EncodedFields

open Sys2Proof

/-- The encoded word of an instruction carries its opcode at 14:11, 0 at bit 15 unless the opcode is
reserved, and its register operands at 10:8 and 7:5 (R71, R73 to R76). -/
def Statement (i : Instr) : Prop :=
  opcField (encode i) = i.opcode.field ∧
    (i.opcode.cls ≠ .reserved → topField (encode i) = 0) ∧
    (∀ r, i.regOperands[0]? = some r → raField (encode i) = r.code) ∧
    ∀ r, i.regOperands[1]? = some r → rbField (encode i) = r.code

theorem mov (ra rb : Reg) : Statement (.mov ra rb) :=
  ⟨opcField_encode _, fun _ => topField_encodeRR .., fun _ h => by cases h; exact raField_encodeRR ..,
    fun _ h => by cases h; exact rbField_encodeRR ..⟩

theorem add (ra rb : Reg) : Statement (.add ra rb) :=
  ⟨opcField_encode _, fun _ => topField_encodeRR .., fun _ h => by cases h; exact raField_encodeRR ..,
    fun _ h => by cases h; exact rbField_encodeRR ..⟩

theorem reserved2 (top : BitVec 1) (low : BitVec 11) : Statement (.reserved2 top low) :=
  ⟨opcField_encode _, fun h => (h rfl).elim, fun _ h => (nomatch h), fun _ h => (nomatch h)⟩

theorem reserved3 (top : BitVec 1) (low : BitVec 11) : Statement (.reserved3 top low) :=
  ⟨opcField_encode _, fun h => (h rfl).elim, fun _ h => (nomatch h), fun _ h => (nomatch h)⟩

theorem reserved4 (top : BitVec 1) (low : BitVec 11) : Statement (.reserved4 top low) :=
  ⟨opcField_encode _, fun h => (h rfl).elim, fun _ h => (nomatch h), fun _ h => (nomatch h)⟩

theorem reserved5 (top : BitVec 1) (low : BitVec 11) : Statement (.reserved5 top low) :=
  ⟨opcField_encode _, fun h => (h rfl).elim, fun _ h => (nomatch h), fun _ h => (nomatch h)⟩

theorem reserved6 (top : BitVec 1) (low : BitVec 11) : Statement (.reserved6 top low) :=
  ⟨opcField_encode _, fun h => (h rfl).elim, fun _ h => (nomatch h), fun _ h => (nomatch h)⟩

theorem reserved7 (top : BitVec 1) (low : BitVec 11) : Statement (.reserved7 top low) :=
  ⟨opcField_encode _, fun h => (h rfl).elim, fun _ h => (nomatch h), fun _ h => (nomatch h)⟩

theorem ldl (ra : Reg) (imm : Byte) : Statement (.ldl ra imm) :=
  ⟨opcField_encode _, fun _ => topField_encodeRI .., fun _ h => by cases h; exact raField_encodeRI ..,
    fun _ h => (nomatch h)⟩

theorem ldh (ra : Reg) (imm : Byte) : Statement (.ldh ra imm) :=
  ⟨opcField_encode _, fun _ => topField_encodeRI .., fun _ h => by cases h; exact raField_encodeRI ..,
    fun _ h => (nomatch h)⟩

theorem cmp (ra rb : Reg) : Statement (.cmp ra rb) :=
  ⟨opcField_encode _, fun _ => topField_encodeRR .., fun _ h => by cases h; exact raField_encodeRR ..,
    fun _ h => by cases h; exact rbField_encodeRR ..⟩

theorem je (addr : Byte) : Statement (.je addr) :=
  ⟨opcField_encode _, fun _ => topField_encodeRI .je .r0 addr, fun _ h => (nomatch h), fun _ h => (nomatch h)⟩

theorem jmp (addr : Byte) : Statement (.jmp addr) :=
  ⟨opcField_encode _, fun _ => topField_encodeRI .jmp .r0 addr, fun _ h => (nomatch h), fun _ h => (nomatch h)⟩

theorem ld (ra : Reg) (addr : Byte) : Statement (.ld ra addr) :=
  ⟨opcField_encode _, fun _ => topField_encodeRI .., fun _ h => by cases h; exact raField_encodeRI ..,
    fun _ h => (nomatch h)⟩

theorem st (ra : Reg) (addr : Byte) : Statement (.st ra addr) :=
  ⟨opcField_encode _, fun _ => topField_encodeRI .., fun _ h => by cases h; exact raField_encodeRI ..,
    fun _ h => (nomatch h)⟩

theorem hlt : Statement (.hlt) :=
  ⟨opcField_encode _, fun _ => rfl, fun _ h => (nomatch h), fun _ h => (nomatch h)⟩

end Sys2Proof.Laws.EncodedFields
end

