-- ==== Sys2Proof/Laws/Tick.lean ====
section
/-! SUPPORT. Everything a clock step and an instruction step can do, said once. -/

namespace Sys2Proof.Machine

open Sys2Proof Host

variable {p : Config.OobPolicy} {s s' : State}

theorem tickWith_running (h : s.status = .running) : tickWith p s = tickRunning p s := by
  simp only [tickWith, h]

theorem tickWith_stopped (h : s.status ≠ .running) : tickWith p s = .next s := by
  unfold tickWith
  split
  · next hr => exact absurd hr h
  · rfl
  · rfl

theorem tickRunning_fa (h : s.phase = .fa) : tickRunning p s = .next (tickFetchAddress s) := by
  simp only [tickRunning, h]

theorem tickRunning_fw (h : s.phase = .fw) : tickRunning p s = .next (tickFetchWord p s) := by
  simp only [tickRunning, h]

theorem tickRunning_dec (h : s.phase = .dec) : tickRunning p s = .next (tickDecode s) := by
  simp only [tickRunning, h]

theorem tickRunning_fo (h : s.phase = .fo) : tickRunning p s = tickFetchOperand p s := by
  simp only [tickRunning, h]

theorem tickRunning_exe (h : s.phase = .exe) : tickRunning p s = tickExecute s := by
  simp only [tickRunning, h]

theorem tickRunning_wb (h : s.phase = .wb) : tickRunning p s = tickWriteBack p s := by
  simp only [tickRunning, h]

/-- Everything a clock step that answers can do (R112). -/
theorem tickWith_cases (h : tickWith p s = .next s') :
    (s.status ≠ .running ∧ s' = s) ∨
    (s.status = .running ∧ s.phase = .fa ∧ s' = tickFetchAddress s) ∨
    (s.status = .running ∧ s.phase = .fw ∧ s' = tickFetchWord p s) ∨
    (s.status = .running ∧ s.phase = .dec ∧ s' = tickDecode s) ∨
    (s.status = .running ∧ s.phase = .fo ∧ tickFetchOperand p s = .next s') ∨
    (s.status = .running ∧ s.phase = .exe ∧ tickExecute s = .next s') ∨
    (s.status = .running ∧ s.phase = .wb ∧ tickWriteBack p s = .next s') := by
  by_cases hr : s.status = .running
  · rw [tickWith_running hr] at h
    simp only [hr, ne_eq, not_true, false_and, true_and, false_or]
    cases hp : s.phase with
    | fa => rw [tickRunning_fa hp] at h; cases h; simp
    | fw => rw [tickRunning_fw hp] at h; cases h; simp
    | dec => rw [tickRunning_dec hp] at h; cases h; simp
    | fo => rw [tickRunning_fo hp] at h; simp [h]
    | exe => rw [tickRunning_exe hp] at h; simp [h]
    | wb => rw [tickRunning_wb hp] at h; simp [h]
  · rw [tickWith_stopped hr] at h
    cases h
    exact .inl ⟨hr, rfl⟩

/-- One clock call of several (R122). -/
theorem ticksWith_succ (h : tickWith p s = .next s') (k : Nat) : ticksWith p (k + 1) s = ticksWith p k s' := by
  simp only [ticksWith, h]

/-- Everything Fetch-Word can do (R102). -/
theorem tickFetchWord_cases (p : Config.OobPolicy) (s : State) :
    (memRead p s.mem s.t = none ∧ tickFetchWord p s = (s.setMar s.t).raise (.fetchOutOfRange s.t)) ∨
    ∃ w, memRead p s.mem s.t = some w ∧
      tickFetchWord p s = (((s.setMar s.t).setMdr w).runAlu .inc s.pc 0).toPhase .dec := by
  unfold tickFetchWord
  cases h : memRead p s.mem s.t with
  | none => left; simp [h]
  | some w => right; exact ⟨w, rfl, by simp [h]⟩

/-- Everything Decode can do, by class (R103 to R105). -/
theorem tickDecode_cases (s : State) :
    ((decode s.mdr).opcode.cls = .reserved ∧ tickDecode s = (s.setIr s.mdr).decodeFailure s.mdr) ∨
    ((decode s.mdr).opcode.cls = .other ∧
      tickDecode s = ((s.setIr s.mdr).writeReg .pc s.t).toPhase .exe) ∨
    ((decode s.mdr).opcode.cls = .mem ∧
      tickDecode s =
        (((s.setIr s.mdr).writeReg .pc s.t).runAlu .nop (zext16 (imm8Field s.mdr)) 0).toPhase .fo) ∨
    ((decode s.mdr).opcode.cls = .rr ∧
      tickDecode s =
        (((s.setIr s.mdr).writeReg .pc s.t).runAlu .nop
          (((s.setIr s.mdr).writeReg .pc s.t).readReg (Reg.ofCode (rbField s.mdr))) 0).toPhase .exe) := by
  unfold tickDecode tickDecodeOperand
  simp only [State.setIr_ir, State.writeReg_ir]
  cases (decode s.mdr).opcode.cls <;> simp

/-- A running machine at a boundary takes one `Step` (R120). -/
theorem stepWith_fa (hr : s.status = .running) (hp : s.phase = .fa) : stepWith p s = instrStep p s := by
  simp only [stepWith, hr, hp]

/-- A stopped machine takes no step (R35). -/
theorem stepWith_stopped (h : s.status ≠ .running) : stepWith p s = .next s := by
  unfold stepWith
  split
  · next hr => exact absurd hr h
  · rfl
  · rfl

/-- Inside an instruction a step finishes that instruction (log 1). -/
theorem stepWith_inside (hr : s.status = .running) (hp : s.phase ≠ .fa) :
    stepWith p s = finishInstr p 5 s := by
  unfold stepWith
  rw [hr]
  cases h : s.phase with
  | fa => exact absurd h hp
  | fw | dec | fo | exe | wb => rfl

/-- Everything a step from inside an instruction can do, clock step by clock step (log 1). -/
theorem finishInstr_succ (h : tickWith p s = .next s') (fuel : Nat) :
    (s'.atBoundary = true ∧ finishInstr p (fuel + 1) s = .next s') ∨
    (s'.atBoundary = false ∧ finishInstr p (fuel + 1) s = finishInstr p fuel s') := by
  cases hb : s'.atBoundary <;> simp [finishInstr, h, hb]

theorem instrStep_some {w : Word} (h : memRead p s.mem s.pc = some w) :
    instrStep p s = exec (decode w) (s.fetched s.pc w) := by
  unfold instrStep
  rw [h]

theorem instrStep_none (h : memRead p s.mem s.pc = none) :
    instrStep p s = .next (s.fetchFault s.pc) := by
  unfold instrStep
  rw [h]

end Sys2Proof.Machine
end

