-- ==== Sys2Proof/Machine/Lexer.lean ====
section
/-! DEFINITION. The assembler's source text: lines, tokens and comments (R87, R88), in front of the
rules of Assembler.lean. Surrounding software, not the CORE (R5); what the spec leaves open here is in
log 23. -/

namespace Sys2Proof.Assembler

open Sys2Proof

/-- The tokens of one line (R88). Reserved words, literals and identifiers are all `word` here; what a
word is depends on where it stands. -/
inductive Token where
  | word (text : Name)
  | comma
  | colon
  deriving DecidableEq, Repr

/-- "Whitespace (space/tab) is insignificant" (R87). -/
def isBlank (c : Char) : Bool := c == ' ' || c == '\t'

/-- A line break (R88; both break characters, log 23). -/
def isBreak (c : Char) : Bool := c == '\n' || c == '\r'

/-- The word collected so far, if any, in front of the tokens after it. -/
def closeWord (acc : Name) (rest : List Token) : List Token :=
  if acc.isEmpty then rest else .word acc.reverse :: rest

/-- One line into tokens: split "on comma, colon" and blanks, up to the comment character (R87, R88). -/
def lexLine (comment : Char) (acc : Name) : List Char → List Token
  | [] => closeWord acc []
  | c :: cs =>
    if c == comment then closeWord acc []
    else if c == ',' then closeWord acc (.comma :: lexLine comment [] cs)
    else if c == ':' then closeWord acc (.colon :: lexLine comment [] cs)
    else if isBlank c then closeWord acc (lexLine comment [] cs)
    else lexLine comment (c :: acc) cs

/-- The source text into lines (R87). -/
def splitLines (acc : List Char) : List Char → List (List Char)
  | [] => [acc.reverse]
  | c :: cs => if isBreak c then acc.reverse :: splitLines [] cs else splitLines (c :: acc) cs

/-- The value of a hexadecimal digit (R93). DESIGN CHOICE: the spec fixes no letter case for digits (D23
and N15 speak of mnemonics and register names); both `a` to `f` and `A` to `F` are taken (log 23). -/
def hexDigit (c : Char) : Option Nat :=
  if '0' ≤ c ∧ c ≤ '9' then some (c.toNat - '0'.toNat)
  else if 'a' ≤ c ∧ c ≤ 'f' then some (c.toNat - 'a'.toNat + 10)
  else if 'A' ≤ c ∧ c ≤ 'F' then some (c.toNat - 'A'.toNat + 10)
  else none

/-- Digits to a number, base 16 (R93). -/
def hexValue (acc : Nat) : List Char → Option Nat
  | [] => some acc
  | c :: cs =>
    match hexDigit c with
    | none => none
    | some d => hexValue (acc * 16 + d) cs

/-- Does the text begin "with the prefix 0x" (R88)? -/
def isHexWord : Name → Bool
  | '0' :: 'x' :: _ => true
  | _ => false

/-- Is the word a known mnemonic or register name (R88)? -/
def isReservedWord (n : Name) : Bool := (mnemonicOpcode n).isSome || (registerCode n).isSome

/-- An identifier is any word that is no literal and not reserved (R88). -/
def isIdentifier (n : Name) : Bool := !isHexWord n && !isReservedWord n

/-- A word as an operand: a literal if it begins with the prefix, else a name (R88, R93). -/
def operandOf (n : Name) : Except Refusal Operand :=
  match n with
  | '0' :: 'x' :: digits =>
    match digits, hexValue 0 digits with
    | _ :: _, some v => .ok (.hex v)
    | _, _ => .error .invalidOperand
  | _ => .ok (.name n)

/-- The instruction part of a line: "mnemonic [operand[, operand]]"; the second operand is there when a
comma follows the first (R87, R93). -/
def parseInstr : List Token → Except Refusal (Option SourceInstr)
  | [] => .ok none
  | [.word m] => .ok (some ⟨m, []⟩)
  | [.word m, .word a] => do
    let x ← operandOf a
    .ok (some ⟨m, [x]⟩)
  | [.word m, .word a, .comma, .word b] => do
    let x ← operandOf a
    let y ← operandOf b
    .ok (some ⟨m, [x, y]⟩)
  | _ => .error .malformedLine

/-- A line: blank, a label definition with or without an instruction, or an instruction (R87). -/
def parseLine : List Token → Except Refusal SourceLine
  | .word n :: .colon :: rest =>
    if isIdentifier n then do
      let i ← parseInstr rest
      .ok ⟨some n, i⟩
    else .error .malformedLine
  | tokens => do
    let i ← parseInstr tokens
    .ok ⟨none, i⟩

/-- All lines of a source text (R87). -/
def parseLines (comment : Char) : List (List Char) → Except Refusal (List SourceLine)
  | [] => .ok []
  | line :: rest => do
    let l ← parseLine (lexLine comment [] line)
    let ls ← parseLines comment rest
    .ok (l :: ls)

/-- The image of a source text whose comments start with `comment` (R87 to R96). -/
def assembleTextWith (comment : Char) (source : List Char) : Except Refusal (List Word) := do
  let lines ← parseLines comment (splitLines [] source)
  assemble lines

/-- The image of a source text (R87 to R96); the comment character is open (D17, log 23). -/
def assembleText (source : List Char) : Except Refusal (List Word) :=
  assembleTextWith Config.commentChar source

end Sys2Proof.Assembler
end

