-- ==== Sys2Proof/Tests/Slice0.lean ====
section
/-! SUPPORT. Our own tests. Expected values are those of spec/95_test_vectors.md (the vector is named at
each test) or of the rule named; then, for every statement with hypotheses, a state and operands that
meet them, at the boundary values of each clause. -/

namespace Sys2Proof.Tests

open Sys2Proof Sys2Proof.Machine Host

/-- The reset state with the word `w` at address `a` and the counter there. -/
def boot (a : Word) (w : Word) : State := (State.reset.placeWord a.toNat w).writeReg .pc a

/-- What an observation gives on the state one instruction later. -/
def after {α : Type} (s : State) (f : State → α) : Option α :=
  match step s with
  | .next t => some (f t)
  | .fault _ => none
  | .refused _ => none

/-- The state an outcome holds. -/
def nextOf : Outcome State Fault Refusal → Option State
  | .next t => some t
  | .fault _ => none
  | .refused _ => none

/-! ### WellFormed: one ill-formed term for each check, and the widest well-formed ones -/

theorem test_wellFormed_refuses_reserved : (Instr.reserved2 0 0).wellFormed = false := by decide
theorem test_wellFormed_refuses_unnamed_first : (Instr.mov .x4 .r0).wellFormed = false := by decide
theorem test_wellFormed_refuses_unnamed_second : (Instr.cmp .r0 .pc).wellFormed = false := by decide
theorem test_wellFormed_refuses_flags_and_sp :
    (Instr.ldl .flags 0).wellFormed = false ∧ (Instr.st .sp 0).wellFormed = false := by decide
theorem test_wellFormed_accepts :
    (Instr.add .r3 .r0).wellFormed = true ∧ (Instr.ld .r3 0xFF).wellFormed = true ∧
      (Instr.je 0xFF).wellFormed = true ∧ Instr.hlt.wellFormed = true := by decide

/-! ### Decode: every constructor, words of E1 and D-1 to D-22 written out -/

theorem test_decode_mov : decode 0b0_0000_011_011_00000 = .mov .r3 .r3 ∧
    decode 0b0_0000_010_000_11111 = .mov .r2 .r0 ∧ decode 0x8000 = .mov .r0 .r0 := by decide
theorem test_decode_add : decode 0b0_0001_011_001_00000 = .add .r3 .r1 ∧
    decode 0b0_0001_111_111_11111 = .add .pc .pc := by decide
theorem test_decode_reserved_2_3_4 : decode 0b0_0010_11111111111 = .reserved2 0 0x7FF ∧
    decode 0x9000 = .reserved2 1 0 ∧ decode 0x1800 = .reserved3 0 0 ∧
    decode 0x2000 = .reserved4 0 0 := by decide
theorem test_decode_reserved_5_6_7 : decode 0x2800 = .reserved5 0 0 ∧ decode 0x3000 = .reserved6 0 0 ∧
    decode 0x3800 = .reserved7 0 0 ∧ decode 0x3FFF = .reserved7 0 0x7FF := by decide
theorem test_decode_ldl : decode 0b0_1000_011_11111111 = .ldl .r3 0xFF ∧ decode 0xC005 = .ldl .r0 5 := by
  decide
theorem test_decode_ldh : decode 0b0_1001_000_00010010 = .ldh .r0 0x12 := by decide
theorem test_decode_cmp : decode 0b0_1010_011_010_00000 = .cmp .r3 .r2 := by decide
theorem test_decode_je : decode 0b0_1011_000_11111111 = .je 0xFF ∧ decode 0x5F07 = .je 0x07 := by decide
theorem test_decode_jmp : decode 0b0_1100_000_00000010 = .jmp 0x02 := by decide
theorem test_decode_ld : decode 0b0_1101_011_11111111 = .ld .r3 0xFF ∧ decode 0x6820 = .ld .r0 0x20 := by
  decide
theorem test_decode_st : decode 0b0_1110_000_01100100 = .st .r0 0x64 := by decide
theorem test_decode_hlt : decode 0b0_1111_00000000000 = .hlt ∧ decode 0xF800 = .hlt ∧
    decode 0xFFFF = .hlt := by decide

/-- The words of E1. -/
theorem test_encode_E1 : encode (.mov .r2 .r0) = 0x0200 ∧ encode (.add .r3 .r3) = 0x0B60 ∧
    encode (.ldl .r3 0xFF) = 0x43FF ∧ encode (.ldh .r3 0xFF) = 0x4BFF ∧ encode (.cmp .r0 .r1) = 0x5020 ∧
    encode (.je 0xFF) = 0x58FF ∧ encode (.jmp 0x02) = 0x6002 ∧ encode (.ld .r0 0x10) = 0x6810 ∧
    encode (.st .r3 0xFF) = 0x73FF ∧ encode .hlt = 0x7800 := by decide

/-- Image bytes, low byte first (R56, E6), and a byte string too short. -/
theorem test_decode_bytes : decodeBytes [0x64, 0x70, 0x00] = .ok (.st .r0 0x64, [0x00]) ∧
    decodeBytes [0x64] = .error .truncated ∧ encodeBytes (.st .r0 0x64) = [0x64, 0x70] := by decide

theorem test_decodeTableWord : decodeTableWord 16 0x7064 = some (.st .r0 0x64) ∧
    decodeTableWord 16 0x1000 = some (.reserved2 0 0) := by decide

theorem test_withFetchWord_runs : after (State.reset.withFetchWord 16 0x4005) (fun t => (t.readReg .r0, t.pc)) =
    some (5, 1) := by decide

/-! ### Instructions: one step each -/

/-- V1, and V6: the counter as an operand is already incremented. -/
theorem test_mov : after ((boot 0 0x0200).writeReg .r0 0x1234) (fun t => (t.readReg .r2, t.pc)) =
      some (0x1234, 1) ∧
    after (boot 9 0x00E0) (fun t => (t.readReg .r0, t.pc)) = some (0xA, 0xA) := by decide

/-- V7, V8: register 7 and register 4 as destinations. -/
theorem test_mov_special : after ((boot 3 0x0700).writeReg .r0 0x20) (fun t => t.pc) = some 0x20 ∧
    after ((boot 0 0x0400).writeReg .r0 0xABCD) (fun t => t.readReg .x4) = some 0xABCD := by decide

/-- V11: wrap-around, no flag. -/
theorem test_add : after (((boot 0 0x0820).writeReg .r0 0xFFFF).writeReg .r1 1)
      (fun t => (t.readReg .r0, t.readReg .flags)) = some (0, 0) := by decide

/-- V16: register 7 as destination and source. -/
theorem test_add_pc : after ((boot 4 0x0F20).writeReg .r1 3) (fun t => t.pc) = some 8 := by decide

/-- V20, V29: OR, not a move; into register 7. -/
theorem test_ldl : after ((boot 0 0x400F).writeReg .r0 0xF0) (fun t => (t.readReg .r0, t.pc)) =
      some (0xFF, 1) ∧ after (boot 4 0x4710) (fun t => t.pc) = some 0x15 := by decide

/-- V22, V28: the high byte; into the flags. -/
theorem test_ldh : after ((boot 0 0x4812).writeReg .r0 0x34) (fun t => t.readReg .r0) = some 0x1234 ∧
    after (boot 0 0x4D40) (fun t => (t.readReg .flags, t.z)) = some (0x4000, true) := by decide

/-- V37: the negative flag set, the zero flag cleared, bits 13:0 kept. -/
theorem test_cmp_flags : after (((boot 0 0x5020).writeReg .r1 1).writeReg .flags 0x7FFF)
      (fun t => (t.readReg .flags, t.t, t.readReg .r0)) = some (0xBFFF, 0xFFFF, 0) := by decide

/-- V35: equal operands clear a negative flag. -/
theorem test_cmp_equal : after ((((boot 0 0x5020).writeReg .r0 5).writeReg .r1 5).writeReg .flags 0x8000)
      (fun t => (t.readReg .flags, t.pc)) = some (0x4000, 1) := by decide

/-- V40, V42: taken on the zero flag, not on the negative flag. -/
theorem test_je : after ((boot 3 0x5807).writeReg .flags 0x4000) (fun t => t.pc) = some 7 ∧
    after ((boot 3 0x5807).writeReg .flags 0x8000) (fun t => t.pc) = some 4 := by decide

/-- V50, V53. -/
theorem test_jmp : after (boot 6 0x6002) (fun t => t.pc) = some 2 ∧
    after (boot 0x20 0x6700) (fun t => t.pc) = some 0 := by decide

/-- V60: overwritten, not ORed, and the latches it leaves. -/
theorem test_ld : after (((boot 0 0x6810).placeWord 0x10 0x1234).writeReg .r0 0xFFFF)
      (fun t => (t.readReg .r0, t.mar, t.mdr, t.t, t.ir)) =
    some (0x1234, 0x10, 0x1234, 0x1234, 0x6810) := by decide

/-- V62: the last address. -/
theorem test_ld_last : after ((boot 0 0x6AFF).placeWord 0xFF 0xBEEF) (fun t => t.readReg .r2) =
    some 0xBEEF := by decide

/-- V70, with its latches. -/
theorem test_st : after ((boot 0 0x7064).writeReg .r0 5)
      (fun t => (t.mem.readWord 0x64, t.mar, t.mdr, t.t, t.pc)) = some (5, 0x64, 0x7064, 5, 1) := by decide

/-- V74, V72: register 7 as the source; an instruction that replaces its own word. -/
theorem test_st_special : after (boot 8 0x7764) (fun t => t.mem.readWord 0x64) = some 9 ∧
    after ((boot 0 0x7000).writeReg .r0 0xAAAA) (fun t => (t.mem.readWord 0, t.pc)) =
      some (0xAAAA, 1) := by decide

/-- V81: the highest address; the counter passes it and nothing is fetched. -/
theorem test_hlt : after ((boot 0xFF 0xFFFF).writeReg .flags 0xC000)
      (fun t => (t.status, t.pc, t.readReg .flags, t.phase)) =
    some (.halted, 0x100, 0xC000, .exe) := by decide

/-- V90, with its latches, and V92. -/
theorem test_reserved : after (boot 4 0x1000) (fun t => (t.status, t.pc, t.ir, t.mdr, t.mar, t.t)) =
      some (.faulted (.decodeFailure 0x1000), 4, 0x1000, 0x1000, 4, 5) ∧
    after (boot 0 0x9000) (fun t => t.status) = some (.faulted (.decodeFailure 0x9000)) := by decide

/-- D-8 to D-12, one word of every other reserved opcode. -/
theorem test_reserved_opcodes :
    after (boot 0 0x1800) (fun t => t.status) = some (.faulted (.decodeFailure 0x1800)) ∧
    after (boot 0 0x2000) (fun t => t.status) = some (.faulted (.decodeFailure 0x2000)) ∧
    after (boot 0 0x2800) (fun t => t.status) = some (.faulted (.decodeFailure 0x2800)) ∧
    after (boot 0 0x3000) (fun t => t.status) = some (.faulted (.decodeFailure 0x3000)) ∧
    after (boot 0 0x3800) (fun t => t.status) = some (.faulted (.decodeFailure 0x3800)) := by decide

/-- V93, V95: fetch out of range. -/
theorem test_fetch_fault :
    after (State.reset.writeReg .pc 0x100) (fun t => (t.status, t.pc, t.mar, t.t)) =
      some (.faulted (.fetchOutOfRange 0x100), 0x100, 0x100, 0x100) ∧
    after (State.reset.writeReg .pc 0xFFFF) (fun t => t.status) =
      some (.faulted (.fetchOutOfRange 0xFFFF)) := by decide

/-- V93 under the other policy: the word at address 0 is fetched (R54). -/
theorem test_fetch_wraps :
    memRead .wrap (State.reset.placeWord 0 0x7800).mem 0x100 = some 0x7800 := by decide

/-- E5, row by row: the clock steps of a lone `hlt`. -/
theorem test_E5_ticks :
    (nextOf (ticksWith .fault 3 (boot 0 0x7800))).map (fun t => (t.phase, t.pc, t.t, t.ir, t.mar, t.mdr)) =
      some (.exe, 1, 1, 0x7800, 0, 0x7800) ∧
    nextOf (ticksWith .fault 6 (boot 0 0x7800)) = nextOf (ticksWith .fault 4 (boot 0 0x7800)) := by decide

/-- E6, steps 13 and 14 of `st r0, 0x64`: Decode puts the address in `T`, Fetch-Operand in `MAR`. -/
theorem test_st_ticks :
    (nextOf (ticksWith .fault 4 (boot 2 0x7064))).map (fun t => (t.phase, t.pc, t.t, t.mar, t.mdr)) =
      some (.exe, 3, 0x64, 0x64, 0x7064) := by decide

/-! ### Host and assembler -/

/-- V101 from the image file of E6; an odd byte (log 18). -/
theorem test_load :
    (match loadImageFile [0x05, 0x40, 0x00, 0x48, 0x64, 0x70, 0x00, 0x78] with
     | .ok s => some (s.mem, s.pc)
     | .error _ => none) = some ([(0, 0x4005), (1, 0x4800), (2, 0x7064), (3, 0x7800)], 0) ∧
    wordsOfBytes .little [0x05] = .error .oddLength := by decide

/-- The result cell is read after a halt only (R62, R123). -/
theorem test_hostResult : hostResult { State.reset.placeWord 0x64 5 with status := .halted } = some 5 ∧
    hostResult (State.reset.placeWord 0x64 5) = none := by decide

/-- E7 in small: `l: je d`, a blank line, `jmp l ; x`, `d: hlt`. Forward and backward labels. -/
theorem test_assemble_labels : Assembler.assembleTextWith ';'
      ['l', ':', ' ', 'j', 'e', ' ', 'd', '\n', '\n', 'j', 'm', 'p', '\t', 'l', ' ', ';', 'x', '\n',
       'd', ':', '\n', 'h', 'l', 't'] = .ok [0x5802, 0x6000, 0x7800] := by decide

/-- `add r3, r1` and `st r0, 0x64` (E1). -/
theorem test_assemble_operands : Assembler.assembleTextWith '#'
      ['a', 'd', 'd', ' ', 'r', '3', ',', ' ', 'r', '1', '\n',
       's', 't', ' ', 'r', '0', ',', '0', 'x', '6', '4'] = .ok [0x0B20, 0x7064] := by decide

/-- E8: an undefined label gives no image; so do a decimal number and a value too large (R88, R94). -/
theorem test_assemble_refuses :
    Assembler.assembleTextWith ';' ['j', 'm', 'p', ' ', 'n'] = .error .invalidOperand ∧
    Assembler.assembleTextWith ';' ['j', 'm', 'p', ' ', '5'] = .error .invalidOperand ∧
    Assembler.assembleTextWith ';' ['j', 'e', ' ', '0', 'x', '1', '0', '0'] = .error .outOfRange ∧
    Assembler.assembleTextWith ';' ['n', 'o', 'p'] = .error .invalidOpcode ∧
    Assembler.assembleTextWith ';' ['a', ':', '\n', 'a', ':'] = .error .duplicateLabel := by decide

/-! ### Witnesses: what meets the hypotheses of each statement -/

/-- Decode of the word `w` fetched from address 0. -/
def decoding (w : Word) : State := { boot 0 w with t := 1, mdr := w, phase := .dec }

/-- Fetch-Operand, Execute or Write-Back of the word `w` fetched from address 0. -/
def inside (ph : Phase) (w addr : Word) : State :=
  { (boot 0 w).writeReg .pc 1 with t := addr, ir := w, mdr := w, mar := addr, phase := ph }

/-- The state after the decode failure of the word `w` at address 0. -/
def failed (w : Word) : State :=
  { decoding w with ir := w, status := .faulted (.decodeFailure w) }

/-- The state after a fetch at address 256. -/
def fellOff : State :=
  { State.reset.writeReg .pc 0x100 with
    t := 0x100, mar := 0x100, phase := .fw, status := .faulted (.fetchOutOfRange 0x100) }

theorem witness_UnusedBitsDoNotChangeDecoding :
    ((0x0200 : Word) ^^^ 0x821F) &&& ~~~(decode 0x0200).opcode.unusedMask = 0 ∧
    ((0x5807 : Word) ^^^ 0xDF07) &&& ~~~(decode 0x5807).opcode.unusedMask = 0 ∧
    ((0x4005 : Word) ^^^ 0xC005) &&& ~~~(decode 0x4005).opcode.unusedMask = 0 ∧
    ((0x7800 : Word) ^^^ 0xFFFF) &&& ~~~(decode 0x7800).opcode.unusedMask = 0 := by decide

theorem witness_EncodeRecoversExactlyTheCanonicalWords :
    (0x0200 : Word) &&& (decode 0x0200).opcode.unusedMask = 0 ∧
    (0x021F : Word) &&& (decode 0x021F).opcode.unusedMask ≠ 0 := by decide

theorem witness_DecodeFollowsTheOpcodeMap :
    [0x07FF, 0x0800, 0x4000, 0x4800, 0x5000, 0x5800, 0x6000, 0x6800, 0x7000, 0x7800, 0x1000, 0x3FFF].map
      (fun w => (opcField w).toNat) = [0, 1, 8, 9, 10, 11, 12, 13, 14, 15, 2, 7] := by decide

theorem witness_EncodedFieldsStandWhereTheFormatsPutThem :
    (∃ i ra rb, i = Instr.mov ra rb ∨ i = .add ra rb ∨ i = .cmp ra rb) ∧
    (∃ i ra b, i = Instr.ldl ra b ∨ i = .ldh ra b ∨ i = .ld ra b ∨ i = .st ra b) ∧
    ∃ i b, i = Instr.je b ∨ i = .jmp b :=
  ⟨⟨_, .pc, .r0, .inr (.inr rfl)⟩, ⟨_, .r3, 0xFF, .inr (.inr (.inr rfl))⟩, ⟨_, 0xFF, .inl rfl⟩⟩

theorem witness_AssemblerAgreesWithTheEncoder :
    (Instr.mov .r0 .r3).wellFormed = true ∧ (Instr.st .r3 0xFF).wellFormed = true ∧
      Instr.hlt.wellFormed = true := by decide

theorem witness_memory_addresses :
    (0 : Word).toNat < 256 ∧ (255 : Word).toNat < 256 ∧ 256 ≤ (256 : Word).toNat ∧
      256 ≤ (0xFFFF : Word).toNat := by decide

theorem witness_CompareAloneWritesTheTwoFlags : (0 < 14 ∧ 13 < 14) ∧ AluMode.sub ≠ AluMode.cmp := by decide

/-- The bit indexes the statements range over. -/
theorem witness_bit_indexes : (0 < 14 ∧ 13 < 14) ∧ 0 < 16 ∧ 15 < 16 := by decide

theorem witness_SplitLoadsCommute : Reg.r3 ≠ Reg.pc ∧ State.reset.readReg .r3 = 0 := by decide

theorem witness_JeFollowsTheZeroFlag :
    (State.reset.writeReg .flags 0x4000).z = true ∧ (State.reset.writeReg .flags 0xBFFF).z = false := by decide

theorem witness_StStoresTheWord :
    dataAddr (.st .pc 0xFF) = some 0xFF ∧ dataAddr (.st .r0 0) = some 0 := by decide

theorem witness_flags_kept : Reg.r0 ≠ Reg.flags ∧ Reg.pc ≠ Reg.flags := by decide

theorem witness_ReservedOpcodesRaiseDecodeFailure :
    ∃ (i : Instr) (top : BitVec 1) (low : BitVec 11),
      i = .reserved2 top low ∨ i = .reserved3 top low ∨ i = .reserved4 top low ∨
        i = .reserved5 top low ∨ i = .reserved6 top low ∨ i = .reserved7 top low :=
  ⟨_, 1, 0x7FF, .inr (.inr (.inr (.inr (.inr rfl))))⟩

theorem witness_OnlyTheDestinationIsWritten :
    (∃ t, exec (.add .r1 .r0) State.reset = .next t) ∧ dest (.add .r1 .r0) ≠ some .flags ∧
      Reg.flags ≠ .pc ∧ (Instr.add .r1 .r0).opcode ≠ .cmp :=
  ⟨⟨_, rfl⟩, by decide, by decide, by decide⟩

theorem witness_OnlyTheDestinationIsWritten_cmp :
    (∃ t, exec (.cmp .r1 .r0) State.reset = .next t) ∧ dest (.cmp .r1 .r0) ≠ some .r1 ∧ Reg.r1 ≠ .flags :=
  ⟨⟨_, rfl⟩, by decide, by decide⟩

theorem witness_OnlyStoresChangeMemory :
    (∃ t, exec (.ld .r1 0) State.reset = .next t) ∧ (Instr.ld .r1 0).opcode ≠ .st ∧
    (∃ t, exec (.st .r1 0xFF) State.reset = .next t) ∧ dataAddr (.st .r1 0xFF) = some 0xFF ∧
      0xFE ≠ (0xFF : Word).toNat :=
  ⟨⟨_, rfl⟩, by decide, ⟨_, rfl⟩, by decide, by decide⟩

theorem witness_AssemblerFormKeepsTheSpecialRegisters :
    (Instr.ldh .r3 0xFF).wellFormed = true ∧ (∃ t, exec (.ldh .r3 0xFF) State.reset = .next t) ∧
      (Instr.ldh .r3 0xFF).opcode ≠ .cmp :=
  ⟨by decide, ⟨_, rfl⟩, by decide⟩

theorem witness_OnlyHltHaltsAndOnlyReservedFaults :
    State.reset.status = .running ∧ (∃ t, exec .hlt State.reset = .next t) ∧
      (∃ t, exec (.reserved7 1 0) State.reset = .next t) ∧ ∃ t, exec (.jmp 0) State.reset = .next t :=
  ⟨rfl, ⟨_, rfl⟩, ⟨_, rfl⟩, ⟨_, rfl⟩⟩

theorem witness_SequentialFlowIsPlusOne :
    (∃ t, exec (.cmp .pc .pc) (State.reset.writeReg .pc 0xFFFF) = .next t) ∧
      (Instr.cmp .pc .pc).opcode.cls ≠ .reserved ∧ dest (.cmp .pc .pc) ≠ some .pc ∧
    (∃ t, exec (.je 7) State.reset = .next t) ∧ (Instr.je 7).opcode.cls ≠ .reserved ∧
      (Instr.je 7).opcode = .je ∧ State.reset.z = false :=
  ⟨⟨_, rfl⟩, by decide, by decide, ⟨_, rfl⟩, by decide, by decide, by decide⟩

theorem witness_StepRunsTheDecodedInstruction :
    (boot 0 0x0200).status = .running ∧ (boot 0 0x0200).phase = .fa ∧ (boot 0 0x0200).pc.toNat < 256 ∧
    (boot 255 0x7800).status = .running ∧ (boot 255 0x7800).phase = .fa ∧
      (boot 255 0x7800).pc.toNat < 256 := by decide

theorem witness_FetchOutOfRangeFaults :
    ((State.reset.writeReg .pc 0x100).status = .running ∧ (State.reset.writeReg .pc 0x100).phase = .fa ∧
      256 ≤ (State.reset.writeReg .pc 0x100).pc.toNat) ∧
    ((State.reset.writeReg .pc 0xFFFF).status = .running ∧ (State.reset.writeReg .pc 0xFFFF).phase = .fa ∧
      256 ≤ (State.reset.writeReg .pc 0xFFFF).pc.toNat) := by decide

theorem witness_DecodeFailureStateAfterAStep :
    ∀ s ∈ [boot 0 0x1000, boot 255 0xBFFF], s.status = .running ∧ s.phase = .fa ∧ s.pc.toNat < 256 ∧
      2 ≤ (opcField (s.mem.readWord s.pc.toNat)).toNat ∧
      (opcField (s.mem.readWord s.pc.toNat)).toNat ≤ 7 := by
  simp only [List.forall_mem_cons, List.not_mem_nil, false_implies, implies_true, and_true]; decide

theorem witness_StoppedMachinesStayAsTheyAre :
    State.endedWell { State.reset with status := .halted } ∧ State.endedBadly fellOff :=
  ⟨rfl, ⟨_, rfl⟩⟩

theorem witness_LatchesAreHiddenFromInstructions :
    (boot 0 0x0820).regs = { boot 0 0x0820 with t := 7, mdr := 9 }.regs ∧
      (boot 0 0x0820).mem = { boot 0 0x0820 with t := 7, mdr := 9 }.mem ∧
      (boot 0 0x0820).status = { boot 0 0x0820 with t := 7, mdr := 9 }.status ∧
      (boot 0 0x0820).phase = .fa ∧ { boot 0 0x0820 with t := 7, mdr := 9 }.phase = .fa ∧
      ∃ t, stepWith .fault (boot 0 0x0820) = .next t :=
  ⟨rfl, rfl, rfl, rfl, rfl, ⟨_, rfl⟩⟩

/-- At address 254, storing to the next address (255), and to another one. -/
theorem witness_AStoreIsSeenByTheNextFetch :
    ((boot 254 0x73FF).status = .running ∧ (boot 254 0x73FF).phase = .fa ∧ (boot 254 0x73FF).pc.toNat < 255 ∧
      decode ((boot 254 0x73FF).mem.readWord (boot 254 0x73FF).pc.toNat) = .st .r3 0xFF) ∧
    ((boot 0 0x7064).status = .running ∧ (boot 0 0x7064).phase = .fa ∧ (boot 0 0x7064).pc.toNat < 255 ∧
      decode ((boot 0 0x7064).mem.readWord (boot 0 0x7064).pc.toNat) = .st .r0 0x64) := by decide

theorem witness_FetchAddressLatchesTheProgramCounter :
    (boot 7 0x7800).status = .running ∧ (boot 7 0x7800).phase = .fa := by decide

theorem witness_FetchWordReadsMemory :
    ((inside .fw 0 0xFF).status = .running ∧ (inside .fw 0 0xFF).phase = .fw ∧
      memRead .fault (inside .fw 0 0xFF).mem (inside .fw 0 0xFF).t = some 0) ∧
    ((inside .fw 0 0x100).status = .running ∧ (inside .fw 0 0x100).phase = .fw ∧
      memRead .fault (inside .fw 0 0x100).mem (inside .fw 0 0x100).t = none) := by decide

/-- One word of each class: reserved, rr (with `rb` the counter), mem, other. -/
theorem witness_DecodeCommitsAndDispatches :
    [0x3FFF, 0x00E0, 0x5020, 0x6BFF, 0x7064, 0x7800, 0x58FF].map (fun w =>
      ((decoding w).status, (decoding w).phase, (decode (decoding w).mdr).opcode.cls)) =
    [(.running, .dec, .reserved), (.running, .dec, .rr), (.running, .dec, .rr), (.running, .dec, .mem),
     (.running, .dec, .mem), (.running, .dec, .other), (.running, .dec, .other)] := by decide

theorem witness_FetchOperandLatchesTheAddress :
    ((inside .fo 0x6BFF 0xFF).status = .running ∧ (inside .fo 0x6BFF 0xFF).phase = .fo ∧
      (inside .fo 0x6BFF 0xFF).phaseInv .fault) ∧
    ((inside .fo 0x7000 0).status = .running ∧ (inside .fo 0x7000 0).phase = .fo ∧
      (inside .fo 0x7000 0).phaseInv .fault) :=
  ⟨⟨rfl, rfl, And.intro (by decide) (by decide)⟩, ⟨rfl, rfl, And.intro (by decide) (by decide)⟩⟩

/-- Execute of each of the ten instructions. -/
theorem witness_ExecuteComputesTheResult :
    [0x0360, 0x0B20, 0x43FF, 0x4BFF, 0x5020, 0x58FF, 0x60FF, 0x6BFF, 0x73FF, 0x7800].map (fun w =>
      ((inside .exe w 0xFF).status, (inside .exe w 0xFF).phase, decode (inside .exe w 0xFF).ir,
        decide ((decode (inside .exe w 0xFF).ir).opcode.cls = .reserved))) =
      [(.running, .exe, .mov .r3 .r3, false), (.running, .exe, .add .r3 .r1, false),
       (.running, .exe, .ldl .r3 0xFF, false), (.running, .exe, .ldh .r3 0xFF, false),
       (.running, .exe, .cmp .r0 .r1, false), (.running, .exe, .je 0xFF, false),
       (.running, .exe, .jmp 0xFF, false), (.running, .exe, .ld .r3 0xFF, false),
       (.running, .exe, .st .r3 0xFF, false), (.running, .exe, .hlt, false)] := by decide

/-- Write-Back of a store, of a jump (no data address) and of a compare. -/
theorem witness_WriteBackCommitsTheResult :
    (inside .wb 0x73FF 0xFF).phaseInv .fault ∧ (inside .wb 0x5807 7).phaseInv .fault ∧
      (inside .wb 0x5020 0).phaseInv .fault ∧ (inside .wb 0x73FF 0xFF).status = .running ∧
      (inside .wb 0x73FF 0xFF).phase = .wb :=
  ⟨⟨by decide, by decide, fun a h => Option.some.inj h⟩, ⟨by decide, by decide, fun _ h => nomatch h⟩,
    ⟨by decide, by decide, fun _ h => nomatch h⟩, rfl, rfl⟩

theorem witness_WriteBackWritesOnlyTheDestinationSelect :
    (inside .wb 0x0B20 7).status = .running ∧ (inside .wb 0x0B20 7).phase = .wb ∧
      (∃ t, tickWith .fault (inside .wb 0x0B20 7) = .next t) ∧
      dest (decode (inside .wb 0x0B20 7).ir) ≠ some .pc ∧
    decode (inside .exe 0x7800 1).ir = .hlt ∧ (inside .exe 0x7800 1).status = .running ∧
      (inside .exe 0x7800 1).phase = .exe :=
  ⟨rfl, rfl, ⟨_, rfl⟩, by decide, by decide, rfl, rfl⟩

theorem witness_coherent_fa : (boot 255 0x7800).coherent .fault := ⟨by decide, True.intro⟩

theorem witness_coherent_fw : State.coherent .fault { State.reset with phase := .fw } ∧
    State.coherent .fault { State.reset.writeReg .pc 0x100 with t := 0x100, phase := .fw } ∧
    resolveAddr .fault 0 ≠ none ∧ resolveAddr .fault 0x100 = none :=
  ⟨⟨by decide, rfl⟩, ⟨by decide, rfl⟩, by decide, by decide⟩

theorem witness_coherent_dec : (decoding 0x7064).coherent .fault ∧ (decoding 0x3FFF).coherent .fault ∧
    (decoding 0x0360).coherent .fault ∧ (decoding 0x7800).coherent .fault ∧
    (decode 0x7064).opcode = .st ∧ (decode 0x3FFF).opcode.cls = .reserved ∧
    (decode 0x0360).opcode.cls = .rr ∧ (decode 0x7800).opcode.cls = .other :=
  ⟨⟨by decide, rfl, rfl, by decide⟩, ⟨by decide, rfl, rfl, by decide⟩, ⟨by decide, rfl, rfl, by decide⟩,
    ⟨by decide, rfl, rfl, by decide⟩, by decide, by decide, by decide, by decide⟩

theorem witness_coherent_fo : (inside .fo 0x6BFF 0xFF).coherent .fault :=
  ⟨by decide, And.intro (by decide) (by decide)⟩

theorem witness_coherent_exe : (inside .exe 0x0360 0).coherent .fault ∧
    (inside .exe 0x7800 1).coherent .fault ∧ decode (inside .exe 0x0360 0).ir ≠ .hlt ∧
    decode (inside .exe 0x7800 1).ir = .hlt :=
  ⟨⟨by decide, by decide, fun _ h => nomatch h⟩, ⟨by decide, by decide, fun _ h => nomatch h⟩, by decide,
    by decide⟩

theorem witness_coherent_wb : (inside .wb 0x73FF 0xFF).coherent .fault :=
  ⟨by decide, by decide, by decide, fun a h => Option.some.inj h⟩

theorem witness_coherent_stopped : (failed 0x3FFF).coherent .fault ∧ fellOff.coherent .fault ∧
    State.coherent .fault { inside .exe 0x7800 1 with status := .halted } :=
  ⟨⟨by decide, rfl, by decide, rfl, rfl, rfl, rfl, by decide⟩, ⟨by decide, rfl, rfl, rfl, rfl, by decide⟩,
    ⟨by decide, rfl, by decide⟩⟩

/-- A running state of the invariant whose clock step answers. -/
def ticks (s : State) : Prop := s.coherent .fault ∧ s.status = .running ∧ ∃ t, tickWith .fault s = .next t

/-- One for each transition: a fetch that finds a word and one that does not, each class in Decode, and
Execute of `hlt` and of another instruction. -/
theorem witness_TheCycleFollowsItsTransitions :
    ticks (boot 255 0x7800) ∧ ticks { State.reset with phase := .fw } ∧
    ticks { State.reset.writeReg .pc 0x100 with t := 0x100, phase := .fw } ∧
    ticks (decoding 0x7064) ∧ ticks (decoding 0x3FFF) ∧ ticks (decoding 0x0360) ∧
    ticks (inside .fo 0x6BFF 0xFF) ∧ ticks (inside .exe 0x0360 0) ∧ ticks (inside .exe 0x7800 1) ∧
    ticks (inside .wb 0x73FF 0xFF) :=
  ⟨⟨witness_coherent_fa, rfl, ⟨_, rfl⟩⟩, ⟨witness_coherent_fw.1, rfl, ⟨_, rfl⟩⟩,
    ⟨witness_coherent_fw.2.1, rfl, ⟨_, rfl⟩⟩, ⟨witness_coherent_dec.1, rfl, ⟨_, rfl⟩⟩,
    ⟨witness_coherent_dec.2.1, rfl, ⟨_, rfl⟩⟩, ⟨witness_coherent_dec.2.2.1, rfl, ⟨_, rfl⟩⟩,
    ⟨witness_coherent_fo, rfl, ⟨_, rfl⟩⟩, ⟨witness_coherent_exe.1, rfl, ⟨_, rfl⟩⟩,
    ⟨witness_coherent_exe.2.1, rfl, ⟨_, rfl⟩⟩, ⟨witness_coherent_wb, rfl, ⟨_, rfl⟩⟩⟩

theorem witness_EveryTickKeepsCoherence :
    (decoding 0x3FFF).coherent .fault ∧ ∃ t, tickWith .fault (decoding 0x3FFF) = .next t :=
  ⟨witness_coherent_dec.2.1, ⟨_, rfl⟩⟩

/-- At a boundary, inside an instruction, and stopped. -/
theorem witness_EveryStepKeepsCoherence :
    ((boot 255 0x7800).coherent Config.oobPolicy ∧ ∃ t, step (boot 255 0x7800) = .next t) ∧
    ((decoding 0x7064).coherent Config.oobPolicy ∧ ∃ t, step (decoding 0x7064) = .next t) ∧
    (fellOff.coherent Config.oobPolicy ∧ ∃ t, step fellOff = .next t) :=
  ⟨⟨witness_coherent_fa, ⟨_, rfl⟩⟩, ⟨witness_coherent_dec.1, ⟨_, rfl⟩⟩,
    ⟨witness_coherent_stopped.2.1, ⟨_, rfl⟩⟩⟩

theorem witness_CoherentStatesNeverStop : (inside .wb 0x73FF 0xFF).coherent .fault := witness_coherent_wb

theorem witness_TickAndStepAgree :
    (boot 0 0x7064).status = .running ∧ (boot 0 0x7064).phase = .fa := by decide

/-- Five clock steps into a store of six; a counter that names a word and one that names none. -/
theorem witness_ClockStepCountsAreExact :
    (boot 0 0x7064).status = .running ∧ (boot 0 0x7064).phase = .fa ∧ 0 < 5 ∧
      5 < clockStepsAt .fault (boot 0 0x7064) ∧
      memRead .fault (boot 0 0x7064).mem (boot 0 0x7064).pc = some 0x7064 ∧
      memRead .fault (State.reset.writeReg .pc 0x100).mem (State.reset.writeReg .pc 0x100).pc = none := by
  decide

theorem witness_AStepFinishesTheInstructionInProgress :
    (inside .wb 0x73FF 0xFF).coherent .fault ∧ (inside .wb 0x73FF 0xFF).status = .running ∧
      (inside .wb 0x73FF 0xFF).phase ≠ .fa ∧
      ∃ t, ticksWith .fault 1 (decoding 0x7064) = .next t :=
  ⟨witness_coherent_wb, rfl, by decide, ⟨_, rfl⟩⟩

theorem witness_ResetAndLoadAreCoherent : ∃ s, loadImage [0x7800] = .ok s := ⟨_, rfl⟩

/-- The loaded one-word image, as a state. -/
def loaded (w : Word) : State := { State.reset with mem := Memory.loadWords 0 [w] [] }

theorem witness_reachable_halted :
    ∃ s, Reachable .fault s ∧ s.endedWell :=
  ⟨_, .tick _ _ (.tick _ _ (.tick _ _ (.tick _ _ (.boot [0x7800] (loaded 0x7800) rfl) rfl) rfl) rfl) rfl, rfl⟩

theorem witness_reachable_decodeFailure :
    ∃ s, Reachable .fault s ∧ s.status = .faulted (.decodeFailure 0x1000) :=
  ⟨_, .tick _ _ (.tick _ _ (.tick _ _ (.boot [0x1000] (loaded 0x1000) rfl) rfl) rfl) rfl, rfl⟩

/-- V29b: `ldh` into register 7 sends the fetch out of range. -/
theorem witness_reachable_fetchFault :
    ∃ s, Reachable .fault s ∧ s.status = .faulted (.fetchOutOfRange 0x101) :=
  ⟨_, .tick _ _ (.tick _ _ (.tick _ _ (.tick _ _ (.tick _ _ (.tick _ _ (.tick _ _
    (.boot [0x4F01] (loaded 0x4F01) rfl) rfl) rfl) rfl) rfl) rfl) rfl) rfl, rfl⟩

theorem witness_LoadedImagesStandAtAddressZero :
    (List.replicate 256 (0 : Word)).length ≤ 256 ∧ 256 < (List.replicate 257 (0 : Word)).length := by
  simp only [List.length_replicate]; decide

end Sys2Proof.Tests
end

section
/-! PROOFS of the statements about the state (10_state.md): the register file, reset and load, the two
ends of a run, what an instruction does to the special registers, and the latches being hidden. -/

namespace Sys2Proof

/-- Different 3-bit indices select different entries (R20, R28). -/
theorem Reg.ofCode_inj {c d : BitVec 3} : Reg.ofCode c = Reg.ofCode d ↔ c = d := by
  constructor
  · intro h
    rw [← Reg.code_ofCode c, h, Reg.code_ofCode]
  · exact congrArg Reg.ofCode

end Sys2Proof

namespace Sys2Proof.Machine

open Sys2Proof Host

/-! ### The register file, reset and load -/

/-- Settles O10: codes and entries correspond, so read after write by entry is read after write by code. -/
theorem registerFileHoldsEveryWrite : Obligations.RegisterFileHoldsEveryWrite := by
  refine ⟨Reg.code_ofCode, Reg.ofCode_code, fun s c d v => ?_⟩
  simp only [State.readReg_eq, State.writeReg_regs, RegFile.read_write, Reg.ofCode_inj]

theorem RegFile.read_reset (q : Reg) : RegFile.reset.read q = 0 := by
  cases q <;> rfl

/-- Settles O57. -/
theorem resetValues : Obligations.ResetValues :=
  ⟨RegFile.read_reset, rfl, rfl, rfl, rfl, rfl, rfl, Memory.readWord_nil⟩

/-- The invariant asks nothing of the latches of a running machine at a boundary. -/
theorem State.coherent_of_boundary {s : State} (p : Config.OobPolicy) (hmem : s.mem.wf = true)
    (hrun : s.status = .running) (hfa : s.phase = .fa) : s.coherent p := by
  simp only [State.coherent, State.statusInv, hrun, State.phaseInv, hfa, and_true]
  exact hmem

/-- Everything an accepted load does: the image fits, and only the memory differs from reset (R60). -/
theorem loadImage_cases {image : List Word} {s : State} (h : loadImage image = .ok s) :
    image.length ≤ Config.memWords ∧
      s = { State.reset with mem := Memory.loadWords Config.loadBase image State.reset.mem } := by
  unfold loadImage at h
  split at h
  · next hlen => cases h; exact ⟨hlen, rfl⟩
  · cases h

/-- Settles O52: both stand at a boundary, and loading keeps the canonical form of memory. -/
theorem resetAndLoadAreCoherent : Obligations.ResetAndLoadAreCoherent := by
  refine fun p => ⟨State.coherent_of_boundary p rfl rfl rfl, fun image s h => ?_⟩
  obtain ⟨hlen, rfl⟩ := loadImage_cases h
  have hwf : (Memory.loadWords Config.loadBase image State.reset.mem).wf = true :=
    Memory.wf_loadWords image Config.loadBase _ (by simpa [Config.loadBase] using hlen) rfl
  exact State.coherent_of_boundary p hwf rfl rfl

/-! ### A stopped machine -/

/-- Both ends of a run are states that do not run (R35). -/
theorem State.not_running_of_ended {s : State} (h : s.endedWell ∨ s.endedBadly) :
    s.status ≠ .running := by
  intro hrun
  obtain hhalt | ⟨f, hfault⟩ := h
  · exact nomatch hrun.symm.trans hhalt
  · exact nomatch hrun.symm.trans hfault

/-- No number of clock calls changes a stopped machine (R112). -/
theorem ticksWith_stopped {p : Config.OobPolicy} {s : State} (h : s.status ≠ .running) (n : Nat) :
    ticksWith p n s = .next s := by
  induction n with
  | zero => rfl
  | succ n ih => rw [ticksWith_succ (tickWith_stopped h), ih]

/-- Settles O37, by induction on the number of clock calls. -/
theorem stoppedMachinesStayAsTheyAre : Obligations.StoppedMachinesStayAsTheyAre := fun _ _ hend =>
  have hstop := State.not_running_of_ended hend
  ⟨stepWith_stopped hstop, ticksWith_stopped hstop⟩

/-! ### What an instruction does to the registers -/

/-- Everything a meaning does to the register file: nothing for a reserved opcode; else the counter is
committed, and then `cmp` writes the flags, a destination that is written back gets a value, or the
committed counter stands, as it does for `je` not taken (R27, R80, R103, R111). -/
theorem exec_regs_cases {i : Instr} {s t : State} (h : exec i s = .next t) :
    (i.opcode.cls = .reserved ∧ t.regs = s.regs) ∨
    (i.opcode = .cmp ∧
      ∃ d, t.regs = (s.regs.write .pc (s.pc + 1)).write .flags (compareFlags s.regs.flags d)) ∨
    (i.opcode ≠ .cmp ∧ t.regs = s.regs.write .pc (s.pc + 1)) ∨
    (i.opcode ≠ .cmp ∧ (i.opcode = .je → s.z = true) ∧
      ∃ r v, dest i = some r ∧ t.regs = (s.regs.write .pc (s.pc + 1)).write r v) := by
  cases i with
  | reserved2 | reserved3 | reserved4 | reserved5 | reserved6 | reserved7 =>
    rw [exec_reserved rfl] at h; cases h
    exact .inl ⟨rfl, rfl⟩
  | cmp ra rb =>
    rw [exec_cmp] at h; cases h
    exact .inr (.inl ⟨rfl, _, rfl⟩)
  | st | hlt =>
    simp only [exec_st, exec_hlt] at h; cases h
    exact .inr (.inr (.inl ⟨nofun, rfl⟩))
  | je addr =>
    rw [exec_je] at h; cases h
    cases hz : s.z with
    | false => exact .inr (.inr (.inl ⟨nofun, rfl⟩))
    | true => exact .inr (.inr (.inr ⟨nofun, fun _ => rfl, .pc, _, rfl, rfl⟩))
  | jmp addr =>
    rw [exec_jmp] at h; cases h
    exact .inr (.inr (.inr ⟨nofun, nofun, .pc, _, rfl, rfl⟩))
  | mov ra | add ra | ldl ra | ldh ra | ld ra =>
    simp only [exec_mov, exec_add, exec_ldl, exec_ldh, exec_ld] at h; cases h
    exact .inr (.inr (.inr ⟨nofun, nofun, ra, _, rfl, rfl⟩))

/-- A register other than the counter that is no destination keeps its value, the flags in every
instruction but `cmp` (R80, R114). -/
theorem exec_readReg_frame {i : Instr} {s t : State} {q : Reg} (h : exec i s = .next t) (hpc : q ≠ .pc)
    (hdest : dest i ≠ some q) (hflags : q = .flags → i.opcode ≠ .cmp) : t.readReg q = s.readReg q := by
  simp only [State.readReg_eq]
  obtain ⟨-, hregs⟩ | ⟨hcmp, d, hregs⟩ | ⟨-, hregs⟩ | ⟨-, -, r, v, hr, hregs⟩ := exec_regs_cases h
  · rw [hregs]
  · rw [hregs, RegFile.read_write_ne _ _ fun hq => hflags hq hcmp, RegFile.read_write_ne _ _ hpc]
  · rw [hregs, RegFile.read_write_ne _ _ hpc]
  · have hqr : q ≠ r := fun hq => hdest (hq ▸ hr)
    rw [hregs, RegFile.read_write_ne _ _ hqr, RegFile.read_write_ne _ _ hpc]

/-- A compare keeps every flag bit but `N` and `Z` (R116). -/
theorem exec_cmp_low_flags {i : Instr} {s t : State} (h : exec i s = .next t) (hcmp : i.opcode = .cmp)
    {k : Nat} (hk : k < 14) : (t.readReg .flags).getLsbD k = (s.readReg .flags).getLsbD k := by
  obtain ⟨hres, -⟩ | ⟨-, d, hregs⟩ | ⟨hne, -⟩ | ⟨hne, -⟩ := exec_regs_cases h
  · rw [hcmp] at hres
    cases hres
  · rw [State.readReg_eq, hregs, RegFile.read_write_same, compareFlags_getLsbD, if_neg (by omega),
      if_neg (by omega), State.readReg_eq, RegFile.read_flags]
  · exact absurd hcmp hne
  · exact absurd hcmp hne

/-- An instruction of assembler form writes `r0` to `r3` or, when it jumps, the counter (R23, R24, R90). -/
theorem dest_of_wellFormed {i : Instr} {r : Reg} (hwf : i.wellFormed = true) (hr : dest i = some r) :
    r.named = true ∨ r = .pc := by
  have hops : i.regOperands.all Reg.named = true := (Bool.and_eq_true_iff.mp hwf).2
  cases i with
  | je | jmp => cases hr; exact .inr rfl
  | mov | add | ldl | ldh | ld =>
    cases hr
    exact .inl (List.all_eq_true.mp hops _ List.mem_cons_self)
  | cmp | st | hlt | reserved2 | reserved3 | reserved4 | reserved5 | reserved6 | reserved7 =>
    exact nomatch hr

/-- Settles O31: entries 4, 5 and 6 have no assembler name and are no destination, so only the flags
write of `cmp` reaches one of them. -/
theorem assemblerFormKeepsTheSpecialRegisters :
    Obligations.AssemblerFormKeepsTheSpecialRegisters := by
  intro i s t hwf h
  have hdest {q : Reg} (hname : q.named = false) (hpc : q ≠ .pc) : dest i ≠ some q := fun hq =>
    (dest_of_wellFormed hwf hq).elim (fun hn => nomatch hname.symm.trans hn) hpc
  have hflags (hne : i.opcode ≠ .cmp) : t.readReg .flags = s.readReg .flags :=
    exec_readReg_frame h nofun (hdest rfl nofun) fun _ => hne
  refine ⟨exec_readReg_frame h nofun (hdest rfl nofun) nofun,
    exec_readReg_frame h nofun (hdest rfl nofun) nofun, fun k hk => ?_, hflags⟩
  by_cases hcmp : i.opcode = .cmp
  · exact exec_cmp_low_flags h hcmp hk
  · rw [hflags hcmp]

/-- Settles O33: in every case but a write to register 7 the committed counter stands. -/
theorem sequentialFlowIsPlusOne : Obligations.SequentialFlowIsPlusOne := by
  intro i s t h hcls hflow
  have hpc : t.pc = s.pc + 1 := by
    rw [State.pc_eq t]
    obtain ⟨hres, -⟩ | ⟨-, d, hregs⟩ | ⟨-, hregs⟩ | ⟨-, htaken, r, v, hr, hregs⟩ := exec_regs_cases h
    · exact absurd hres hcls
    · rw [hregs, RegFile.write_flags_pc, RegFile.write_pc_pc]
    · rw [hregs, RegFile.write_pc_pc]
    · have hrpc : r ≠ .pc := by
        rintro rfl
        obtain hdest | ⟨hje, hz⟩ := hflow
        · exact hdest hr
        · exact nomatch hz.symm.trans (htaken hje)
      rw [hregs, RegFile.write_pc, if_neg hrpc, RegFile.write_pc_pc]
  rw [hpc, BitVec.toNat_add]
  rfl

/-! ### The latches are hidden -/

/-- The fetch overwrites all four latches and the phase, so the state handed to a meaning is a function of
registers, memory and status alone (R37, R101 to R103). -/
theorem State.fetched_congr {s₁ s₂ : State} (hregs : s₁.regs = s₂.regs) (hmem : s₁.mem = s₂.mem)
    (hstatus : s₁.status = s₂.status) (a w : Word) : s₁.fetched a w = s₂.fetched a w := by
  simp only [State.fetched, hregs, hmem, hstatus]

/-- Settles O38: a stopped machine stays, a failed fetch writes latches only beside the fault, and two
fetches of one word give the same state. -/
theorem latchesAreHiddenFromInstructions : Obligations.LatchesAreHiddenFromInstructions := by
  intro p s₁ s₂ t₁ hregs hmem hstatus hfa₁ hfa₂ h
  by_cases hrun : s₁.status = .running
  · have hpc : s₁.pc = s₂.pc := congrArg RegFile.pc hregs
    rw [stepWith_fa hrun hfa₁] at h
    rw [stepWith_fa (hstatus ▸ hrun) hfa₂]
    cases hread : memRead p s₁.mem s₁.pc with
    | none =>
      rw [instrStep_none hread] at h
      rw [hmem, hpc] at hread
      cases h
      refine ⟨_, instrStep_none hread, hregs, hmem, ?_, rfl⟩
      rw [State.fetchFault_status, State.fetchFault_status, hpc]
    | some w =>
      rw [instrStep_some hread, State.fetched_congr hregs hmem hstatus, hpc] at h
      rw [hmem, hpc] at hread
      exact ⟨t₁, (instrStep_some hread).trans h, rfl, rfl, rfl, rfl⟩
  · rw [stepWith_stopped hrun] at h
    cases h
    exact ⟨s₂, stepWith_stopped (hstatus ▸ hrun), hregs, hmem, hstatus, hfa₁.trans hfa₂.symm⟩

end Sys2Proof.Machine
end

section
/-! PROOFS of the statements about memory (20_memory.md): accesses inside and beyond the 256 words, who
writes memory, the fetch after a store, and the image: loading it and its file. -/

namespace Sys2Proof.Machine

open Sys2Proof Host

/-! ### Accesses inside and beyond the 256 words -/

/-- A read at an address that exists, under either policy (R52). -/
theorem memRead_of_lt (p : Config.OobPolicy) (m : Memory) {addr : Word}
    (h : addr.toNat < Config.memWords) : memRead p m addr = some (m.readWord addr.toNat) := by
  rw [memRead, resolveAddr_of_lt p h, Option.map_some]

/-- A write at an address that exists, under either policy (R53). -/
theorem memWrite_of_lt (p : Config.OobPolicy) (m : Memory) {addr : Word} (v : Word)
    (h : addr.toNat < Config.memWords) : memWrite p m addr v = some (m.writeWord addr.toNat v) := by
  rw [memWrite, resolveAddr_of_lt p h, Option.map_some]

/-- Under `wrap` an address that does not exist stands for its residue modulo 256 (R54). -/
theorem resolveAddr_wrap_of_ge {addr : Word} (h : Config.memWords ≤ addr.toNat) :
    resolveAddr .wrap addr = some (addr.toNat % Config.memWords) := if_neg (Nat.not_lt.mpr h)

/-- Settles O11: below 256 both accesses go to the word of that number, whatever the policy. -/
theorem memoryReadsBackEveryWrite : Obligations.MemoryReadsBackEveryWrite := by
  refine fun p m addr v haddr => ⟨_, memWrite_of_lt p m v haddr, fun b hb => ?_⟩
  rw [memRead_of_lt p _ hb, memRead_of_lt p m hb, Memory.readWord_writeWord]
  simp only [← BitVec.toNat_inj]
  split <;> rfl

/-- Settles O12: each access is its resolved address, which is none under `fault` and the residue under
`wrap`. -/
theorem addressesBeyondMemoryNameNoWord : Obligations.AddressesBeyondMemoryNameNoWord := by
  intro m addr v haddr
  have hfault : resolveAddr .fault addr = none := (resolveAddr_eq_none .fault addr).mpr ⟨rfl, haddr⟩
  have hwrap : resolveAddr .wrap addr = some (addr.toNat % 256) := resolveAddr_wrap_of_ge haddr
  simp only [memRead, memWrite, hfault, hwrap, Option.map_none, Option.map_some, and_self]

/-! ### Who writes memory -/

/-- Everything a meaning does to memory: `st` writes the one word it addresses, with its operand read after
the commit of the counter, and every other instruction leaves memory as it is (R53, R59). -/
theorem exec_mem_cases {i : Instr} {s t : State} (h : exec i s = .next t) :
    (i.opcode ≠ .st ∧ t.mem = s.mem) ∨
    ∃ ra addr, i = .st ra addr ∧ t.mem = s.mem.writeWord addr.toNat (s.commitPc.readReg ra) := by
  cases i with
  | st ra addr =>
    rw [exec_st] at h; cases h
    exact .inr ⟨ra, addr, rfl, rfl⟩
  | reserved2 | reserved3 | reserved4 | reserved5 | reserved6 | reserved7 =>
    rw [exec_reserved rfl] at h; cases h
    exact .inl ⟨nofun, rfl⟩
  | je addr =>
    rw [exec_je] at h; cases h
    refine .inl ⟨nofun, ?_⟩
    cases hz : s.z <;> rfl
  | mov | add | cmp | ldl | ldh | jmp | ld | hlt =>
    simp only [exec_mov, exec_add, exec_cmp, exec_ldl, exec_ldh, exec_jmp, exec_ld, exec_hlt] at h
    cases h
    exact .inl ⟨nofun, rfl⟩

/-- Settles O30: the one word `st` writes is the one at the address it presents. -/
theorem onlyStoresChangeMemory : Obligations.OnlyStoresChangeMemory := by
  intro i s t h
  obtain ⟨hne, hmem⟩ | ⟨ra, addr, rfl, hmem⟩ := exec_mem_cases h
  · exact ⟨fun _ => hmem, fun _ _ _ _ => by rw [hmem]⟩
  · refine ⟨fun hne => absurd rfl hne, fun d a hd ha => ?_⟩
    cases hd
    rw [zext16_toNat] at ha
    rw [hmem, Memory.readWord_writeWord, if_neg ha]

/-! ### The fetch after a store -/

/-- A running machine at a boundary whose counter names a word runs that word (R120). -/
theorem step_of_pc_lt {s : State} (hrun : s.status = .running) (hfa : s.phase = .fa)
    (hpc : s.pc.toNat < Config.memWords) :
    step s = exec (decode (s.mem.readWord s.pc.toNat)) (s.fetched s.pc (s.mem.readWord s.pc.toNat)) :=
  (stepWith_fa hrun hfa).trans (instrStep_some (memRead_of_lt _ _ hpc))

/-- Everything about the state after `st` that the next fetch looks at (R66, R171). -/
theorem step_st {s : State} {ra : Reg} {addr : Byte} (hrun : s.status = .running) (hfa : s.phase = .fa)
    (hpc : s.pc.toNat < Config.memWords) (hst : decode (s.mem.readWord s.pc.toNat) = .st ra addr) :
    ∃ t, step s = .next t ∧ t.status = .running ∧ t.phase = .fa ∧ t.pc = s.pc + 1 ∧
      t.mem = s.mem.writeWord addr.toNat (if ra = .pc then s.pc + 1 else s.readReg ra) := by
  have hstep := step_of_pc_lt hrun hfa hpc
  rw [hst, exec_st] at hstep
  refine ⟨_, hstep, hrun, rfl, rfl, ?_⟩
  rw [← State.commitPc_operand]
  rfl

/-- Settles O39: the store leaves a boundary with the counter at the next word, and that step's fetch reads
the memory the store wrote. -/
theorem aStoreIsSeenByTheNextFetch : Obligations.AStoreIsSeenByTheNextFetch := by
  intro s ra addr hrun hfa hpc hst
  obtain ⟨t, ht, htrun, htfa, htpc, htmem⟩ := step_st hrun hfa (Nat.lt_succ_of_lt hpc) hst
  have hnext : t.pc.toNat = s.pc.toNat + 1 := by
    rw [htpc, BitVec.toNat_add]
    exact Nat.mod_eq_of_lt (show s.pc.toNat + 1 < 2 ^ 16 by omega)
  have hlt : t.pc.toNat < Config.memWords := hnext ▸ Nat.succ_lt_succ hpc
  refine ⟨t, _, ht, ?_, step_of_pc_lt htrun htfa hlt⟩
  rw [hnext, htmem, Memory.readWord_writeWord]
  exact if_congr eq_comm rfl rfl

/-! ### The image -/

/-- Everything loading does to a read: inside the image its word, outside what was there before (R60). -/
theorem Memory.readWord_loadWords (image : List Word) (a : Nat) (m : Memory) (b : Nat) :
    (Memory.loadWords a image m).readWord b =
      if a ≤ b ∧ b < a + image.length then image.getD (b - a) 0 else m.readWord b := by
  induction image generalizing a m with
  | nil => rw [if_neg (by simp)]; rfl
  | cons w ws ih =>
    rw [Memory.loadWords, ih, Memory.readWord_writeWord, List.length_cons]
    rcases Nat.lt_trichotomy b a with hlt | rfl | hgt
    · rw [if_neg (by omega), if_neg (by omega), if_neg (by omega)]
    · rw [if_neg (by omega), if_pos rfl, if_pos (by omega), Nat.sub_self, List.getD_cons_zero]
    · rw [show b - a = b - (a + 1) + 1 by omega, List.getD_cons_succ, if_neg (show b ≠ a by omega)]
      exact if_congr (by omega) rfl rfl

/-- An image over zeros from address 0 reads as the image and 0 after its end (R42, R60). -/
theorem Memory.readWord_loadWords_reset (image : List Word) (b : Nat) :
    (Memory.loadWords Config.loadBase image State.reset.mem).readWord b = image.getD b 0 := by
  rw [Memory.readWord_loadWords, Config.loadBase, Nat.sub_zero, Nat.zero_add]
  by_cases h : b < image.length
  · rw [if_pos ⟨Nat.zero_le b, h⟩]
  · rw [if_neg fun hb => h hb.2, List.getD_eq_default _ _ (Nat.le_of_not_lt h)]
    rfl

/-- Settles O58: the two branches of the length check, and the read of the loaded memory. -/
theorem loadedImagesStandAtAddressZero : Obligations.LoadedImagesStandAtAddressZero := fun image =>
  ⟨fun hlen => ⟨_, if_pos hlen, Memory.readWord_loadWords_reset image, rfl⟩,
    fun hlen => if_neg (Nat.not_le.mpr hlen)⟩

/-- In the little-endian order the first byte is the low one (R56; D12, log 18). -/
theorem wordOfBytes_little_toNat (b0 b1 : Byte) :
    (wordOfBytes .little b0 b1).toNat = b0.toNat + 256 * b1.toNat := by
  rw [wordOfBytes, BitVec.toNat_append, ← Nat.shiftLeft_add_eq_or_of_lt b0.isLt, Nat.shiftLeft_eq]
  omega

/-- A word is its high byte above its low byte. -/
theorem highByte_append_lowByte (w : Word) : w.extractLsb' 8 8 ++ w.extractLsb' 0 8 = w := by
  rw [BitVec.extractLsb'_append_extractLsb'_eq_extractLsb' (by omega)]
  exact BitVec.extractLsb'_eq_self

/-- The two bytes of a word make that word again, in either order (R56). -/
theorem wordOfBytes_bytesOfWord (order : Config.ByteOrder) (w : Word) :
    wordOfBytes order (bytesOfWord order w).1 (bytesOfWord order w).2 = w := by
  cases order with
  | little => exact highByte_append_lowByte w
  | big => exact highByte_append_lowByte w

/-- The file of an image reads back as the image, in either order (R56). -/
theorem wordsOfBytes_bytesOfWords (order : Config.ByteOrder) (image : List Word) :
    wordsOfBytes order (bytesOfWords order image) = .ok image := by
  induction image with
  | nil => rfl
  | cons w ws ih =>
    rw [bytesOfWords, wordsOfBytes, ih, wordOfBytes_bytesOfWord]
    rfl

/-- Settles O59; the default order is the little-endian one. -/
theorem imageFilesReadBack : Obligations.ImageFilesReadBack :=
  ⟨wordOfBytes_little_toNat, wordsOfBytes_bytesOfWords⟩

end Sys2Proof.Machine
end

section
/-! PROOFS of the statements about the encoding (30_encoding.md): fields and formats, decoder and encoder as
inverses up to the unused bits, the assembler, the reserved opcodes, and the destination select. -/

namespace Sys2Proof

/-! ### A word and its fields -/

/-- A word is bit 15, the opcode and bits 10:0 (R72, R75). -/
theorem word_eq_top_opc_low (w : Word) : w = topField w ++ opcField w ++ lowField w := by
  simp only [topField, opcField, lowField, BitVec.extractLsb'_append_extractLsb'_eq_extractLsb',
    BitVec.extractLsb'_eq_self]

/-- A word is bit 15, the opcode, `ra` and `imm8` (R72, R74). -/
theorem word_eq_top_opc_ra_imm8 (w : Word) : w = topField w ++ opcField w ++ raField w ++ imm8Field w := by
  simp only [topField, opcField, raField, imm8Field, BitVec.extractLsb'_append_extractLsb'_eq_extractLsb',
    BitVec.extractLsb'_eq_self]

/-- A word is bit 15, the opcode, `ra`, `rb` and bits 4:0 (R72, R73). -/
theorem word_eq_top_opc_ra_rb_rest (w : Word) :
    w = topField w ++ opcField w ++ raField w ++ rbField w ++ w.extractLsb' 0 5 := by
  simp only [topField, opcField, raField, rbField, BitVec.extractLsb'_append_extractLsb'_eq_extractLsb',
    BitVec.extractLsb'_eq_self]

/-- Settles O5: a slice is a shift and a remainder. -/
theorem fieldsAreTheSlicesOfTheWord : Obligations.FieldsAreTheSlicesOfTheWord := by
  intro w
  simp only [opcField, raField, rbField, imm8Field, BitVec.extractLsb'_toNat, Nat.shiftRight_eq_div_pow,
    Nat.pow_zero, Nat.div_one, true_and]
  omega

/-! ### Decoding an encoded instruction -/

/-- Settles O1: the opcode field selects the arm of the decoder, and each format puts its operands where
that arm reads them. -/
theorem decodeRecoversEveryEncodedInstruction :
    Obligations.DecodeRecoversEveryEncodedInstruction := by
  intro i
  have hop : Opcode.ofField (opcField (encode i)) = i.opcode := by
    rw [opcField_encode, Opcode.ofField_field]
  unfold decode
  rw [hop]
  cases i with
  | mov | add | cmp =>
    simp only [Instr.opcode, encode, raField_encodeRR, rbField_encodeRR, Reg.ofCode_code]
  | ldl | ldh | ld | st =>
    simp only [Instr.opcode, encode, raField_encodeRI, imm8Field_encodeRI, Reg.ofCode_code]
  | je | jmp => simp only [Instr.opcode, encode, encodeJ_eq, imm8Field_encodeRI]
  | hlt => rfl
  | reserved2 | reserved3 | reserved4 | reserved5 | reserved6 | reserved7 =>
    simp only [Instr.opcode, encode, topField_encodeReserved, lowField_encodeReserved]

/-! ### Encoding a decoded word -/

/-- Format RR keeps `w[14:5]` (R73). -/
theorem encodeRR_fields {w : Word} {o : Opcode} (h : o.field = opcField w) :
    encodeRR o (Reg.ofCode (raField w)) (Reg.ofCode (rbField w)) = w &&& ~~~0x801F#16 := by
  have hmask : ~~~0x801F#16 =
      0#1 ++ BitVec.allOnes 4 ++ BitVec.allOnes 3 ++ BitVec.allOnes 3 ++ 0#5 := by decide
  conv_rhs => rw [word_eq_top_opc_ra_rb_rest w, hmask]
  rw [BitVec.and_append, BitVec.and_append, BitVec.and_append, BitVec.and_append]
  simp only [encodeRR, h, Reg.code_ofCode, BitVec.and_zero, BitVec.and_allOnes]

/-- Format RI keeps `w[14:0]` (R74). -/
theorem encodeRI_fields {w : Word} {o : Opcode} (h : o.field = opcField w) :
    encodeRI o (Reg.ofCode (raField w)) (imm8Field w) = w &&& ~~~0x8000#16 := by
  have hmask : ~~~0x8000#16 = 0#1 ++ BitVec.allOnes 4 ++ BitVec.allOnes 3 ++ BitVec.allOnes 8 := by decide
  conv_rhs => rw [word_eq_top_opc_ra_imm8 w, hmask]
  rw [BitVec.and_append, BitVec.and_append, BitVec.and_append]
  simp only [encodeRI, h, Reg.code_ofCode, BitVec.and_zero, BitVec.and_allOnes]

/-- Format J keeps `w[14:11]` and `w[7:0]` (R75). -/
theorem encodeJ_fields {w : Word} {o : Opcode} (h : o.field = opcField w) :
    encodeJ o (imm8Field w) = w &&& ~~~0x8700#16 := by
  have hmask : ~~~0x8700#16 = 0#1 ++ BitVec.allOnes 4 ++ 0#3 ++ BitVec.allOnes 8 := by decide
  conv_rhs => rw [word_eq_top_opc_ra_imm8 w, hmask]
  rw [BitVec.and_append, BitVec.and_append, BitVec.and_append]
  simp only [encodeJ, h, BitVec.and_zero, BitVec.and_allOnes]

/-- Format N keeps `w[14:11]` (R75). -/
theorem encodeN_fields {w : Word} {o : Opcode} (h : o.field = opcField w) :
    encodeN o = w &&& ~~~0x87FF#16 := by
  have hmask : ~~~0x87FF#16 = 0#1 ++ BitVec.allOnes 4 ++ 0#11 := by decide
  conv_rhs => rw [word_eq_top_opc_low w, hmask]
  rw [BitVec.and_append, BitVec.and_append]
  simp only [encodeN, h, BitVec.and_zero, BitVec.and_allOnes]

/-- A reserved word keeps every bit (R82). -/
theorem encodeReserved_fields {w : Word} {o : Opcode} (h : o.field = opcField w) :
    encodeReserved o (topField w) (lowField w) = w &&& ~~~0#16 := by
  rw [encodeReserved, h, ← word_eq_top_opc_low, BitVec.not_zero, BitVec.and_allOnes]

/-- Encoding a decoded word clears its unused bits and keeps every other one (R83, R86). -/
theorem encode_decode (w : Word) : encode (decode w) = w &&& ~~~(decode w).opcode.unusedMask := by
  have hfield : (Opcode.ofField (opcField w)).field = opcField w := Opcode.field_ofField _
  unfold decode
  cases h : Opcode.ofField (opcField w) with
  | mov | add | cmp => exact encodeRR_fields (h ▸ hfield)
  | ldl | ldh | ld | st => exact encodeRI_fields (h ▸ hfield)
  | je | jmp => exact encodeJ_fields (h ▸ hfield)
  | hlt => exact encodeN_fields (h ▸ hfield)
  | reserved2 | reserved3 | reserved4 | reserved5 | reserved6 | reserved7 =>
    exact encodeReserved_fields (h ▸ hfield)

/-- Clearing the bits of a mask changes nothing exactly when they are 0 already. -/
theorem and_not_eq_self_iff {n : Nat} (x m : BitVec n) : x &&& ~~~m = x ↔ x &&& m = 0 := by
  have hbit : ∀ a b : Bool, ((a && !b) = a) ↔ (a && b) = false := by decide
  simp only [BitVec.eq_of_getElem_eq_iff, BitVec.getElem_and, BitVec.getElem_not, BitVec.ofNat_eq_ofNat,
    BitVec.getElem_zero, hbit]

/-- Settles O2: the encoder clears the unused bits. -/
theorem encodeRecoversExactlyTheCanonicalWords :
    Obligations.EncodeRecoversExactlyTheCanonicalWords := by
  intro w
  rw [encode_decode]
  exact and_not_eq_self_iff w _

/-- Words that agree outside a mask are equal once its bits are cleared. -/
theorem and_not_eq_of_xor_and_not_eq_zero {n : Nat} {x y m : BitVec n} (h : (x ^^^ y) &&& ~~~m = 0) :
    y &&& ~~~m = x &&& ~~~m := by
  have hbit : ∀ a b c : Bool, ((a ^^ b) && !c) = false ↔ (b && !c) = (a && !c) := by decide
  simpa only [BitVec.eq_of_getElem_eq_iff, BitVec.getElem_and, BitVec.getElem_not, BitVec.getElem_xor,
    BitVec.ofNat_eq_ofNat, BitVec.getElem_zero, hbit] using h

/-- No opcode bit is unused (R83). -/
theorem opcField_and_not_unusedMask (w : Word) (o : Opcode) :
    opcField (w &&& ~~~o.unusedMask) = opcField w := by
  have hmask : (~~~o.unusedMask).extractLsb' 11 4 = BitVec.allOnes 4 := by cases o <;> rfl
  rw [opcField, BitVec.extractLsb'_and, hmask, BitVec.and_allOnes, opcField]

/-- Settles O3: the two words have one opcode, hence one mask, and encode alike once decoded; the round
trip recovers the instruction. -/
theorem unusedBitsDoNotChangeDecoding : Obligations.UnusedBitsDoNotChangeDecoding := by
  intro w v h
  have hclear : v &&& ~~~(decode w).opcode.unusedMask = w &&& ~~~(decode w).opcode.unusedMask :=
    and_not_eq_of_xor_and_not_eq_zero h
  have hop : (decode v).opcode = (decode w).opcode := by
    rw [opcode_decode v, opcode_decode w, ← opcField_and_not_unusedMask v (decode w).opcode, hclear,
      opcField_and_not_unusedMask]
  have henc : encode (decode v) = encode (decode w) := by
    rw [encode_decode, encode_decode, hop, hclear]
  rw [← decodeRecoversEveryEncodedInstruction (decode v), henc, decodeRecoversEveryEncodedInstruction]

/-! ### The opcode map -/

/-- The opcode field of a word is that of the instruction it decodes to (R77). -/
theorem field_opcode_decode (w : Word) : (decode w).opcode.field = opcField w := by
  rw [opcode_decode, Opcode.field_ofField]

/-- The reserved opcodes are those of number 2 to 7 (R76). -/
theorem Opcode.cls_eq_reserved_iff (o : Opcode) :
    o.cls = .reserved ↔ 2 ≤ o.field.toNat ∧ o.field.toNat ≤ 7 := by
  cases o <;> decide

/-- A reserved word has no bit to ignore (log 3). -/
theorem Opcode.unusedMask_of_reserved {o : Opcode} (h : o.cls = .reserved) : o.unusedMask = 0 := by
  cases o
  case reserved2 | reserved3 | reserved4 | reserved5 | reserved6 | reserved7 => rfl
  all_goals exact nomatch h

/-- Settles O6: the number in `w[14:11]` names the opcode, and the opcode the arm of the decoder; a reserved
word comes back from the encoder since no bit of it is unused. -/
theorem decodeFollowsTheOpcodeMap : Obligations.DecodeFollowsTheOpcodeMap := by
  intro w
  have hop (o : Opcode) (h : (opcField w).toNat = o.field.toNat) : Opcode.ofField (opcField w) = o := by
    rw [BitVec.eq_of_toNat_eq h, Opcode.ofField_field]
  refine ⟨fun h => ?mov, fun h => ?add, fun h => ?ldl, fun h => ?ldh, fun h => ?cmp, fun h => ?je,
    fun h => ?jmp, fun h => ?ld, fun h => ?st, fun h => ?hlt, fun h => ?reserved⟩
  case mov => rw [decode, hop .mov h]
  case add => rw [decode, hop .add h]
  case ldl => rw [decode, hop .ldl h]
  case ldh => rw [decode, hop .ldh h]
  case cmp => rw [decode, hop .cmp h]
  case je => rw [decode, hop .je h]
  case jmp => rw [decode, hop .jmp h]
  case ld => rw [decode, hop .ld h]
  case st => rw [decode, hop .st h]
  case hlt => rw [decode, hop .hlt h]
  case reserved =>
    have hcls : (decode w).opcode.cls = .reserved := by
      rwa [Opcode.cls_eq_reserved_iff, field_opcode_decode]
    refine ⟨hcls, field_opcode_decode w, ?_⟩
    rw [encodeRecoversExactlyTheCanonicalWords, Opcode.unusedMask_of_reserved hcls]
    exact BitVec.and_zero

/-- Settles O8. -/
theorem sampleWordsDecode : Obligations.SampleWordsDecode := by
  unfold Obligations.SampleWordsDecode
  decide

/-! ### The formats -/

/-- Format RR leaves bits 4:0 zero (R73). -/
theorem extractLsb'_encodeRR_low (o : Opcode) (ra rb : Reg) : (encodeRR o ra rb).extractLsb' 0 5 = 0 :=
  BitVec.extractLsb'_append_eq_right

/-- Settles O7, format by format. -/
theorem encodedFieldsStandWhereTheFormatsPutThem :
    Obligations.EncodedFieldsStandWhereTheFormatsPutThem := by
  refine ⟨?rr, ?ri, ?j, rfl, rfl, rfl⟩
  case rr =>
    rintro _ ra rb (rfl | rfl | rfl) <;>
    exact ⟨topField_encodeRR .., opcField_encode _, raField_encodeRR .., rbField_encodeRR ..,
      extractLsb'_encodeRR_low ..⟩
  case ri =>
    rintro _ ra b (rfl | rfl | rfl | rfl) <;>
    exact ⟨topField_encodeRI .., opcField_encode _, raField_encodeRI .., imm8Field_encodeRI ..⟩
  case j =>
    rintro _ b (rfl | rfl) <;>
    exact ⟨topField_encodeRI _ .r0 b, opcField_encode _, raField_encodeRI _ .r0 b,
      imm8Field_encodeRI _ .r0 b⟩

/-- The number of a concatenation. -/
theorem toNat_append_eq_add {m n : Nat} (x : BitVec m) (y : BitVec n) :
    (x ++ y).toNat = x.toNat * 2 ^ n + y.toNat := by
  rw [BitVec.toNat_append, ← Nat.shiftLeft_add_eq_or_of_lt y.isLt, Nat.shiftLeft_eq]

/-- Format RI in numbers (R95). -/
theorem encodeRI_toNat (o : Opcode) (ra : Reg) (imm : Byte) :
    (encodeRI o ra imm).toNat = o.field.toNat * 2 ^ 11 + ra.code.toNat * 2 ^ 8 + imm.toNat := by
  simp only [encodeRI, toNat_append_eq_add, BitVec.toNat_ofNat]
  omega

/-- Format RR in numbers (R95). -/
theorem encodeRR_toNat (o : Opcode) (ra rb : Reg) :
    (encodeRR o ra rb).toNat = o.field.toNat * 2 ^ 11 + ra.code.toNat * 2 ^ 8 + rb.code.toNat * 2 ^ 5 := by
  rw [encodeRR_eq, encodeRI_toNat, toNat_append_eq_add, BitVec.toNat_zero, Nat.add_zero]

/-- Format J in numbers (R95). -/
theorem encodeJ_toNat (o : Opcode) (addr : Byte) :
    (encodeJ o addr).toNat = o.field.toNat * 2 ^ 11 + addr.toNat := by
  rw [encodeJ_eq, encodeRI_toNat, show Reg.r0.code.toNat = 0 from rfl, Nat.zero_mul, Nat.add_zero]

/-- Settles O4: the sums of the three formats at the opcode numbers of R76. -/
theorem encodedWordsAreTheShiftedSums : Obligations.EncodedWordsAreTheShiftedSums :=
  ⟨fun ra rb => ⟨encodeRR_toNat .mov ra rb, encodeRR_toNat .add ra rb, encodeRR_toNat .cmp ra rb⟩,
    fun ra b => ⟨encodeRI_toNat .ldl ra b, encodeRI_toNat .ldh ra b, encodeRI_toNat .ld ra b,
      encodeRI_toNat .st ra b⟩,
    fun b => ⟨encodeJ_toNat .je b, encodeJ_toNat .jmp b⟩, rfl⟩

end Sys2Proof

namespace Sys2Proof.Assembler

open Sys2Proof

/-! ### The assembler -/

/-- Format RI as the assembler builds it, by shifts and OR (R95). -/
theorem encodeRI_eq_or (o : Opcode) (ra : Reg) (imm : Byte) :
    encodeRI o ra imm =
      o.field.setWidth 16 <<< 11 ||| BitVec.ofNat 16 ra.code.toNat <<< 8 ||| BitVec.ofNat 16 imm.toNat := by
  rw [← BitVec.setWidth_eq (encodeRI o ra imm), encodeRI,
    BitVec.setWidth_append_append_append_eq_shiftLeft_setWidth_or]
  simp only [BitVec.setWidth_zero, BitVec.zero_shiftLeft, BitVec.zero_or, BitVec.ofNat_toNat]

/-- A register with a name resolves to its code, and as a register (R90, R93). -/
theorem resolve_registerName {r : Reg} (h : r.named = true) :
    ∃ n, registerName r = some n ∧ resolve [] (.name n) = .ok (r.code.toNat, true) := by
  cases r with
  | r0 | r1 | r2 | r3 => exact ⟨_, rfl, rfl⟩
  | x4 | flags | sp | pc => exact nomatch h

/-- A literal resolves to its value, and not as a register (R93). -/
theorem resolve_hex (v : Nat) : resolve [] (.hex v) = .ok (v, false) := rfl

theorem inField_of_le {limit v : Nat} (h : v ≤ limit) : inField limit v = .ok v := if_pos h

/-- A register code fits its own field (R94). -/
theorem inField_code (r : Reg) : inField 7 r.code.toNat = .ok r.code.toNat :=
  inField_of_le (Nat.le_of_lt_succ r.code.isLt)

/-- A byte fits the field of a second operand (R94). -/
theorem inField_byte (b : Byte) : inField 0xFF b.toNat = .ok b.toNat :=
  inField_of_le (Nat.le_of_lt_succ b.isLt)

/-- A line of two named registers assembles to format RR (R91, R95). -/
theorem encodeLine_twoRegisters {m : Name} {o : Opcode} {ra rb : Reg} (hm : mnemonicOpcode m = some o)
    (har : o.arity? = some 2) (ha : ra.named = true) (hb : rb.named = true) :
    ∃ src, sourceOf.twoRegisters m ra rb = some src ∧ encodeLine [] src = .ok (encodeRR o ra rb) := by
  obtain ⟨na, hna, hra⟩ := resolve_registerName ha
  obtain ⟨nb, hnb, hrb⟩ := resolve_registerName hb
  have hfield : inField 0xFF rb.code.toNat = .ok rb.code.toNat :=
    inField_of_le (Nat.le_trans (Nat.le_of_lt rb.code.isLt) (by decide))
  have hrb5 : BitVec.ofNat 16 rb.code.toNat <<< 5 = BitVec.ofNat 16 (rb.code ++ 0#5).toNat := by
    cases rb <;> rfl
  refine ⟨⟨m, [.name na, .name nb]⟩, by rw [sourceOf.twoRegisters, hna, hnb], ?_⟩
  simp only [encodeLine, hm, har, hra, hrb, inField_code, hfield, bind, Except.bind, if_true, encodeRR_eq,
    encodeRI_eq_or, hrb5]

/-- A line of a named register and a literal assembles to format RI (R91, R95). -/
theorem encodeLine_registerAndLiteral {m : Name} {o : Opcode} {ra : Reg} (hm : mnemonicOpcode m = some o)
    (har : o.arity? = some 2) (ha : ra.named = true) (imm : Byte) :
    ∃ src, sourceOf.registerAndLiteral m ra imm = some src ∧
      encodeLine [] src = .ok (encodeRI o ra imm) := by
  obtain ⟨na, hna, hra⟩ := resolve_registerName ha
  refine ⟨⟨m, [.name na, .hex imm.toNat]⟩, by rw [sourceOf.registerAndLiteral, hna]; rfl, ?_⟩
  simp only [encodeLine, hm, har, hra, resolve_hex, inField_code, inField_byte, bind, Except.bind,
    Bool.false_eq_true, if_false, encodeRI_eq_or]

/-- A jump to a literal address assembles to format J (R91, R95). -/
theorem encodeLine_literal {m : Name} {o : Opcode} (hm : mnemonicOpcode m = some o)
    (har : o.arity? = some 1) (addr : Byte) :
    encodeLine [] ⟨m, [.hex addr.toNat]⟩ = .ok (encodeJ o addr) := by
  have hr0 : BitVec.ofNat 16 Reg.r0.code.toNat <<< 8 = 0#16 := rfl
  simp only [encodeLine, hm, har, resolve_hex, inField_byte, bind, Except.bind, encodeJ_eq, encodeRI_eq_or,
    hr0, BitVec.or_zero]

/-- Settles O9, one operand form at a time; a reserved opcode is not of assembler form. -/
theorem assemblerAgreesWithTheEncoder : Obligations.AssemblerAgreesWithTheEncoder := by
  intro i hwf
  obtain ⟨himpl, hops⟩ := Bool.and_eq_true_iff.mp hwf
  rw [List.all_eq_true] at hops
  cases i with
  | mov ra rb | add ra rb | cmp ra rb =>
    exact encodeLine_twoRegisters rfl rfl (hops ra List.mem_cons_self)
      (hops rb (List.mem_cons_of_mem _ List.mem_cons_self))
  | ldl ra b | ldh ra b | ld ra b | st ra b =>
    exact encodeLine_registerAndLiteral rfl rfl (hops ra List.mem_cons_self) b
  | je addr | jmp addr => exact ⟨_, rfl, encodeLine_literal rfl rfl addr⟩
  | hlt => exact ⟨_, rfl, rfl⟩
  | reserved2 | reserved3 | reserved4 | reserved5 | reserved6 | reserved7 => exact nomatch himpl

end Sys2Proof.Assembler

namespace Sys2Proof.Machine

open Sys2Proof Host

/-! ### Reserved opcodes and the destination select -/

/-- Settles O27: the fault carries the encoded word, which has the fields it was made of. -/
theorem reservedOpcodesRaiseDecodeFailure : Obligations.ReservedOpcodesRaiseDecodeFailure := by
  intro i top low s hi
  have hform : i.opcode.cls = .reserved ∧ encode i = encodeReserved i.opcode top low := by
    obtain rfl | rfl | rfl | rfl | rfl | rfl := hi <;> exact ⟨rfl, rfl⟩
  obtain ⟨hcls, henc⟩ := hform
  have hrange := i.opcode.cls_eq_reserved_iff.mp hcls
  rw [← opcField_encode i] at hrange
  refine ⟨_, encode i, exec_reserved hcls s, rfl, ?_, opcField_encode i, ?_, hrange.1, hrange.2,
    fun _ => rfl, fun _ => rfl, rfl, rfl, rfl, rfl, rfl⟩
  · rw [henc, topField_encodeReserved]
  · rw [henc, lowField_encodeReserved]

/-- Settles O29 by the frame of a meaning. -/
theorem onlyTheDestinationIsWritten : Obligations.OnlyTheDestinationIsWritten :=
  fun _ _ _ _ h hdest hpc hflags =>
    exec_readReg_frame h hpc hdest fun hq hcmp => hflags.elim (absurd hq) (absurd hcmp)

/-- Everything Write-Back does to the register file: it stands, or the destination select gets a value
(R80, R111). -/
theorem tickWriteBack_regs_cases {p : Config.OobPolicy} {s t : State} (h : tickWriteBack p s = .next t) :
    t.regs = s.regs ∨ ∃ r v, dest (decode s.ir) = some r ∧ t.regs = s.regs.write r v := by
  unfold tickWriteBack at h
  cases hi : decode s.ir with
  | st =>
    rw [hi] at h
    cases hm : memWrite p s.mem s.mar s.t with
    | none => rw [hm] at h; cases h
    | some m => rw [hm] at h; cases h; exact .inl rfl
  | cmp => rw [hi] at h; cases h; exact .inl rfl
  | je =>
    rw [hi] at h; cases h
    cases hz : s.z with
    | false => exact .inl rfl
    | true => exact .inr ⟨.pc, _, rfl, rfl⟩
  | jmp => rw [hi] at h; cases h; exact .inr ⟨.pc, _, rfl, rfl⟩
  | mov ra | add ra | ldl ra | ldh ra | ld ra =>
    rw [hi] at h; cases h
    exact .inr ⟨ra, _, rfl, rfl⟩
  | hlt | reserved2 | reserved3 | reserved4 | reserved5 | reserved6 | reserved7 =>
    rw [hi] at h; cases h

/-- Settles O47: the frame of Write-Back, the select row by row, and the halt in Execute. -/
theorem writeBackWritesOnlyTheDestinationSelect :
    Obligations.WriteBackWritesOnlyTheDestinationSelect := by
  refine ⟨fun p s t q hrun hwb h hdest => ?frame, fun _ => ⟨rfl, rfl⟩,
    fun _ _ _ => ⟨rfl, rfl, rfl, rfl, rfl, rfl, rfl⟩, rfl, fun p s hhlt hrun hexe => ?halt⟩
  case frame =>
    rw [tickWith_running hrun, tickRunning_wb hwb] at h
    rw [State.readReg_eq, State.readReg_eq]
    obtain hregs | ⟨r, v, hr, hregs⟩ := tickWriteBack_regs_cases h
    · rw [hregs]
    · have hqr : q ≠ r := fun hq => hdest (hq ▸ hr)
      rw [hregs, RegFile.read_write_ne _ _ hqr]
  case halt =>
    rw [tickWith_running hrun, tickRunning_exe hexe, tickExecute, hhlt]
    rfl

end Sys2Proof.Machine
end

section
/-! PROOFS of the statements about the cycle and the ALU (40_cycle_and_alu.md): the ALU's modes and the
flags, what every instruction answers, each state of the cycle, the invariant, and the agreement of the
clock step with the instruction step. -/

namespace Sys2Proof

/-! ### Operands by opcode and class -/

/-- The second register operand is the one that bits 7:5 select (R73, R79). -/
theorem ofCode_rbField_of_regOperands {w : Word} {ra rb : Reg}
    (h : (decode w).regOperands = [ra, rb]) : Reg.ofCode (rbField w) = rb := by
  unfold decode at h
  cases ho : Opcode.ofField (opcField w) with
  | mov | add | cmp => rw [ho] at h; cases h; rfl
  | reserved2 | reserved3 | reserved4 | reserved5 | reserved6 | reserved7 | ldl | ldh | je | jmp | ld | st
  | hlt => rw [ho] at h; cases h

/-- The instructions of class MEM are the load and the store (R78). -/
theorem Instr.eq_ld_or_st {i : Instr} (h : i.opcode.cls = .mem) :
    ∃ ra addr, i = .ld ra addr ∨ i = .st ra addr := by
  cases i with
  | ld ra addr => exact ⟨ra, addr, .inl rfl⟩
  | st ra addr => exact ⟨ra, addr, .inr rfl⟩
  | mov | add | cmp | ldl | ldh | je | jmp | hlt | reserved2 | reserved3 | reserved4 | reserved5
  | reserved6 | reserved7 => exact nomatch h

/-- The opcodes of class MEM (R78). -/
theorem Opcode.cls_eq_mem_iff (o : Opcode) : o.cls = .mem ↔ o = .ld ∨ o = .st := by
  cases o <;> decide

/-- The clock-step counts by opcode number (R113). -/
theorem Opcode.clockSteps_eq (o : Opcode) :
    o.clockSteps =
      if 2 ≤ o.field.toNat ∧ o.field.toNat ≤ 7 then 3
      else if o.field.toNat = 13 ∨ o.field.toNat = 14 then 6
      else if o.field.toNat = 15 then 4 else 5 := by
  cases o <;> rfl

/-- A decode failure takes three clock steps (R113; D9, log 2). -/
theorem Opcode.clockSteps_of_reserved {o : Opcode} (h : o.cls = .reserved) : o.clockSteps = 3 := by
  rw [Opcode.clockSteps_eq, if_pos (o.cls_eq_reserved_iff.mp h)]

/-- A reserved word comes back from the encoder, no bit of it being unused (R82). -/
theorem encode_decode_of_reserved {w : Word} (h : (decode w).opcode.cls = .reserved) :
    encode (decode w) = w := by
  rw [encodeRecoversExactlyTheCanonicalWords, Opcode.unusedMask_of_reserved h]
  exact BitVec.and_zero

end Sys2Proof

namespace Sys2Proof.Machine

open Sys2Proof Host

/-- The address presented by an instruction of class MEM is its `imm8` field (R59, R81). -/
theorem dataAddr_decode {w : Word} (h : (decode w).opcode.cls = .mem) :
    dataAddr (decode w) = some (zext16 (imm8Field w)) := by
  unfold decode at h ⊢
  cases ho : Opcode.ofField (opcField w) with
  | ld | st => rfl
  | mov | add | cmp | ldl | ldh | je | jmp | hlt | reserved2 | reserved3 | reserved4 | reserved5
  | reserved6 | reserved7 => rw [ho] at h; cases h

/-- Only class MEM presents a data address (R59). -/
theorem dataAddr_eq_none {i : Instr} (h : i.opcode.cls ≠ .mem) : dataAddr i = none := by
  cases i with
  | ld | st => exact absurd rfl h
  | mov | add | cmp | ldl | ldh | je | jmp | hlt | reserved2 | reserved3 | reserved4 | reserved5
  | reserved6 | reserved7 => rfl

/-! ### The ALU -/

/-- A wrap-around difference as an integer (R115, R116). -/
theorem toNat_sub_eq_emod (a b : Word) : ((a - b).toNat : Int) = ((a.toNat : Int) - b.toNat) % 2 ^ 16 := by
  have := a.isLt
  have := b.isLt
  rw [BitVec.toNat_sub]
  omega

/-- Settles O13. -/
theorem exercisedAluModesWrap : Obligations.ExercisedAluModesWrap := fun a b =>
  ⟨alu_nop a b, BitVec.toNat_add a 1, BitVec.toNat_add a b, toNat_sub_eq_emod a b⟩

/-- Settles O14: decrement is the difference with 1. -/
theorem unexercisedAluModes : Obligations.UnexercisedAluModes := by
  refine fun a b => ⟨toNat_sub_eq_emod a b, toNat_sub_eq_emod a 1, fun i hi => ⟨?and, ?or, ?xor, ?not⟩⟩
  case and => exact BitVec.getLsbD_and
  case or => exact BitVec.getLsbD_or
  case xor => exact BitVec.getLsbD_xor
  case not =>
    have hnot : (alu .not a b).getLsbD i = (decide (i < 16) && !a.getLsbD i) := BitVec.getLsbD_not
    rw [hnot, decide_eq_true hi, Bool.true_and]

/-- Bit 15 of a word, as a number. -/
theorem getLsbD_15_iff (w : Word) : w.getLsbD 15 = true ↔ 2 ^ 15 ≤ w.toNat := by
  have hmsb : w.msb = w.getLsbD 15 := BitVec.msb_eq_getLsbD_last w
  rw [← hmsb, BitVec.msb_eq_decide, decide_eq_true_iff]

/-- Settles O15: `Z` says that the difference is 0 and `N` that it is at least 2^15. -/
theorem compareAloneWritesTheTwoFlags : Obligations.CompareAloneWritesTheTwoFlags := by
  intro a b flags
  have hz : zeroFlag (aluFlags .cmp a b flags) = decide (a = b) := by
    rw [aluFlags_cmp, zeroFlag_compareFlags]
    exact decide_eq_decide.mpr sub_eq_zero
  have hn : negFlag (aluFlags .cmp a b flags) = (a - b).getLsbD 15 := by
    rw [aluFlags_cmp, negFlag_compareFlags]
  refine ⟨hz, ?neg, ?both, fun i hi => ?kept, fun m hm => aluFlags_pure hm a b flags⟩
  case neg =>
    rw [hn, getLsbD_15_iff, ← toNat_sub_eq_emod]
    omega
  case both =>
    rintro ⟨hzero, hneg⟩
    rw [hz, decide_eq_true_iff] at hzero
    rw [hn, hzero, BitVec.sub_self, getLsbD_15_iff] at hneg
    exact absurd hneg (by decide)
  case kept => rw [aluFlags_cmp, compareFlags_getLsbD, if_neg (by omega), if_neg (by omega)]

/-! ### What every instruction answers -/

/-- Settles O28, by the equation of each meaning. -/
theorem everyInstructionAnswers : Obligations.EveryInstructionAnswers := by
  intro i s
  cases i with
  | mov ra rb => exact ⟨_, exec_mov ra rb s⟩
  | add ra rb => exact ⟨_, exec_add ra rb s⟩
  | cmp ra rb => exact ⟨_, exec_cmp ra rb s⟩
  | ldl ra imm => exact ⟨_, exec_ldl ra imm s⟩
  | ldh ra imm => exact ⟨_, exec_ldh ra imm s⟩
  | je addr => exact ⟨_, exec_je addr s⟩
  | jmp addr => exact ⟨_, exec_jmp addr s⟩
  | ld ra addr => exact ⟨_, exec_ld ra addr s⟩
  | st ra addr => exact ⟨_, exec_st ra addr s⟩
  | hlt => exact ⟨_, exec_hlt s⟩
  | reserved2 | reserved3 | reserved4 | reserved5 | reserved6 | reserved7 => exact ⟨_, exec_reserved rfl s⟩

/-- Everything a meaning does to the run status (R109, R112, R187). -/
theorem exec_status_cases {i : Instr} {s t : State} (h : exec i s = .next t) :
    (i.opcode.cls = .reserved ∧ t.status = .faulted (.decodeFailure (encode i))) ∨
    (i = .hlt ∧ t.status = .halted) ∨
    (i.opcode.cls ≠ .reserved ∧ i ≠ .hlt ∧ t.status = s.status) := by
  cases i with
  | reserved2 | reserved3 | reserved4 | reserved5 | reserved6 | reserved7 =>
    rw [exec_reserved rfl] at h; cases h
    exact .inl ⟨rfl, rfl⟩
  | hlt =>
    rw [exec_hlt] at h; cases h
    exact .inr (.inl ⟨rfl, rfl⟩)
  | je addr =>
    rw [exec_je] at h; cases h
    refine .inr (.inr ⟨nofun, nofun, ?_⟩)
    cases hz : s.z <;> rfl
  | mov | add | cmp | ldl | ldh | jmp | ld | st =>
    simp only [exec_mov, exec_add, exec_cmp, exec_ldl, exec_ldh, exec_jmp, exec_ld, exec_st] at h
    cases h
    exact .inr (.inr ⟨nofun, nofun, rfl⟩)

/-- Settles O32: the three ends of a meaning exclude each other. -/
theorem onlyHltHaltsAndOnlyReservedFaults : Obligations.OnlyHltHaltsAndOnlyReservedFaults := by
  intro i s t hrun h
  obtain ⟨hcls, ht⟩ | ⟨rfl, ht⟩ | ⟨hcls, hne, ht⟩ := exec_status_cases h
  · have hne : i ≠ .hlt := by rintro rfl; cases hcls
    simp [ht, hcls, hne, eq_comm]
  · simp [ht, Instr.opcode, Opcode.cls]
  · simp [ht, hrun, hcls, hne]

/-! ### The step at a boundary -/

/-- Settles O34. -/
theorem stepRunsTheDecodedInstruction : Obligations.StepRunsTheDecodedInstruction :=
  fun _ hrun hfa hpc => step_of_pc_lt hrun hfa hpc

/-- The counter of a state made ready to run names a word (log 19). -/
theorem State.readyToRun_pc_toNat (s : State) (w : Word) :
    (s.readyToRun w).pc.toNat = s.pc.toNat % Config.memWords := by
  have hlt : s.pc.toNat % Config.memWords < 2 ^ 16 :=
    Nat.lt_trans (Nat.mod_lt _ (by decide)) (by decide)
  exact Nat.mod_eq_of_lt hlt

/-- The word at the counter of a state made ready to run is the word placed (log 19). -/
theorem State.readyToRun_word (s : State) (w : Word) :
    (s.readyToRun w).mem.readWord (s.readyToRun w).pc.toNat = w := by
  rw [State.readyToRun_pc_toNat]
  exact (Memory.readWord_writeWord _ _ _ _).trans (if_pos rfl)

/-- Settles O40: the placed word stands where the fetch reads. -/
theorem aPlacedWordIsRunByTheNextStep : Obligations.APlacedWordIsRunByTheNextStep := by
  intro s w
  have hw : BitVec.ofNat 16 (w % 2 ^ 16) = BitVec.ofNat 16 w := BitVec.eq_of_toNat_eq (by simp)
  have hpc : (s.readyToRun (BitVec.ofNat 16 w)).pc.toNat < Config.memWords := by
    rw [State.readyToRun_pc_toNat]
    exact Nat.mod_lt _ (by decide)
  have hstep := step_of_pc_lt (s := s.readyToRun (BitVec.ofNat 16 w)) rfl rfl hpc
  rw [State.readyToRun_word] at hstep
  rw [State.withFetchWord, hw]
  exact hstep

end Sys2Proof.Machine
end

section
/-! PROOFS of the statements about the single states of the cycle (40_cycle_and_alu.md): one equation per
state and instruction, and what Decode, Execute and Write-Back do by them. -/

namespace Sys2Proof.Machine

open Sys2Proof Host

variable {p : Config.OobPolicy} {s t : State}

/-! ### The invariant, state by state -/

theorem State.coherent_running_iff (h : s.status = .running) :
    s.coherent p ↔ s.mem.wf = true ∧ s.phaseInv p := by
  simp only [State.coherent, State.statusInv, h]

theorem State.coherent_halted_iff (h : s.status = .halted) :
    s.coherent p ↔ s.mem.wf = true ∧ s.phase = .exe ∧ decode s.ir = .hlt := by
  simp only [State.coherent, State.statusInv, h]

theorem State.coherent_decodeFailure_iff {w : Word} (h : s.status = .faulted (.decodeFailure w)) :
    s.coherent p ↔ s.mem.wf = true ∧ s.phase = .dec ∧ (decode w).opcode.cls = .reserved ∧ s.ir = w ∧
      s.mdr = w ∧ s.mar = s.pc ∧ s.t = s.pc + 1 ∧ memRead p s.mem s.pc = some w := by
  simp only [State.coherent, State.statusInv, h]

theorem State.coherent_fetchOutOfRange_iff {a : Word} (h : s.status = .faulted (.fetchOutOfRange a)) :
    s.coherent p ↔ s.mem.wf = true ∧ s.phase = .fw ∧ s.pc = a ∧ s.mar = a ∧ s.t = a ∧
      resolveAddr p a = none := by
  simp only [State.coherent, State.statusInv, h]

theorem State.phaseInv_fw_iff (h : s.phase = .fw) : s.phaseInv p ↔ s.t = s.pc := by
  simp only [State.phaseInv, h]

theorem State.phaseInv_dec_iff (h : s.phase = .dec) :
    s.phaseInv p ↔ s.mar = s.pc ∧ s.t = s.pc + 1 ∧ memRead p s.mem s.pc = some s.mdr := by
  simp only [State.phaseInv, h]

theorem State.phaseInv_fo_iff (h : s.phase = .fo) :
    s.phaseInv p ↔ (decode s.ir).opcode.cls = .mem ∧ dataAddr (decode s.ir) = some s.t := by
  simp only [State.phaseInv, h]

theorem State.phaseInv_exe_iff (h : s.phase = .exe) :
    s.phaseInv p ↔ (decode s.ir).opcode.cls ≠ .reserved ∧
      ∀ a, dataAddr (decode s.ir) = some a → s.mar = a := by
  simp only [State.phaseInv, h]

theorem State.phaseInv_wb_iff (h : s.phase = .wb) :
    s.phaseInv p ↔ (decode s.ir).opcode.cls ≠ .reserved ∧ decode s.ir ≠ .hlt ∧
      ∀ a, dataAddr (decode s.ir) = some a → s.mar = a := by
  simp only [State.phaseInv, h]

/-! ### Fetch-Address and Fetch-Word -/

/-- Settles O41. -/
theorem fetchAddressLatchesTheProgramCounter : Obligations.FetchAddressLatchesTheProgramCounter :=
  fun _ _ hrun hfa => (tickWith_running hrun).trans (tickRunning_fa hfa)

/-- Settles O42, by the two cases of the read. -/
theorem fetchWordReadsMemory : Obligations.FetchWordReadsMemory := by
  intro p s hrun hfw
  have htick : tickWith p s = .next (tickFetchWord p s) :=
    (tickWith_running hrun).trans (tickRunning_fw hfw)
  obtain ⟨hread, heq⟩ | ⟨w, hread, heq⟩ := tickFetchWord_cases p s
  · exact ⟨fun _ h => (nomatch hread.symm.trans h), fun _ => htick.trans (congrArg _ heq)⟩
  · refine ⟨fun v h => ?_, fun h => (nomatch h.symm.trans hread)⟩
    cases hread.symm.trans h
    exact htick.trans (congrArg _ heq)

/-! ### Decode -/

theorem tickWith_dec (hrun : s.status = .running) (hdec : s.phase = .dec) :
    tickWith p s = .next (tickDecode s) :=
  (tickWith_running hrun).trans (tickRunning_dec hdec)

theorem tickDecode_reserved (h : (decode s.mdr).opcode.cls = .reserved) :
    tickDecode s = (s.setIr s.mdr).decodeFailure s.mdr := by
  simp only [tickDecode, tickDecodeOperand, State.setIr_ir, h]

theorem tickDecode_other (h : (decode s.mdr).opcode.cls = .other) :
    tickDecode s = ((s.setIr s.mdr).writeReg .pc s.t).toPhase .exe := by
  simp only [tickDecode, tickDecodeOperand, State.setIr_ir, State.setIr_t, h]

theorem tickDecode_mem (h : (decode s.mdr).opcode.cls = .mem) :
    tickDecode s =
      (((s.setIr s.mdr).writeReg .pc s.t).runAlu .nop (zext16 (imm8Field s.mdr)) 0).toPhase .fo := by
  simp only [tickDecode, tickDecodeOperand, State.setIr_ir, State.setIr_t, State.writeReg_ir, h]

theorem tickDecode_rr (h : (decode s.mdr).opcode.cls = .rr) :
    tickDecode s =
      (((s.setIr s.mdr).writeReg .pc s.t).runAlu .nop
        (((s.setIr s.mdr).writeReg .pc s.t).readReg (Reg.ofCode (rbField s.mdr))) 0).toPhase .exe := by
  simp only [tickDecode, tickDecodeOperand, State.setIr_ir, State.setIr_t, State.writeReg_ir, h]

/-- What Decode leaves unchanged, whatever the word (R103). -/
theorem tickDecode_frame (s : State) :
    (tickDecode s).ir = s.mdr ∧ (tickDecode s).mar = s.mar ∧ (tickDecode s).mdr = s.mdr ∧
      (tickDecode s).mem = s.mem ∧ ∀ q, q ≠ .pc → (tickDecode s).readReg q = s.readReg q := by
  obtain ⟨-, heq⟩ | ⟨-, heq⟩ | ⟨-, heq⟩ | ⟨-, heq⟩ := tickDecode_cases s
  · rw [heq]
    exact ⟨rfl, rfl, rfl, rfl, fun _ _ => rfl⟩
  all_goals
    rw [heq]
    exact ⟨rfl, rfl, rfl, rfl, fun _ hq => RegFile.read_write_ne s.regs s.t hq⟩

/-- Settles O43: the frame, and the equation of each class. -/
theorem decodeCommitsAndDispatches : Obligations.DecodeCommitsAndDispatches := by
  intro p s hrun hdec
  obtain ⟨hir, hmar, hmdr, hmem, hregs⟩ := tickDecode_frame s
  refine ⟨_, tickWith_dec hrun hdec, hir, hmar, hmdr, hmem, hregs, fun h => ?reserved, fun h => ?commit,
    fun h => ?rr, fun h => ?mem, fun h => ?other⟩
  case reserved =>
    rw [tickDecode_reserved h]
    exact ⟨rfl, rfl, rfl, rfl⟩
  case commit =>
    obtain ⟨hcls, -⟩ | ⟨-, heq⟩ | ⟨-, heq⟩ | ⟨-, heq⟩ := tickDecode_cases s
    · exact absurd hcls h
    all_goals
      rw [heq]
      exact ⟨hrun, rfl⟩
  case rr =>
    rw [tickDecode_rr h]
    exact ⟨rfl, RegFile.read_write s.regs .pc _ s.t⟩
  case mem =>
    rw [tickDecode_mem h]
    exact ⟨rfl, zext16_toNat _⟩
  case other =>
    rw [tickDecode_other h]
    exact ⟨rfl, rfl⟩

/-! ### Fetch-Operand -/

theorem tickFetchOperand_ld {ra : Reg} {addr : Byte} (h : decode s.ir = .ld ra addr)
    (ht : s.t = zext16 addr) :
    tickFetchOperand p s =
      .next { s with mar := s.t, mdr := s.mem.readWord s.t.toNat, phase := .exe } := by
  have hread : memRead p (s.setMar s.t).mem (s.setMar s.t).mar = some (s.mem.readWord s.t.toNat) :=
    memRead_of_lt p s.mem (ht ▸ zext16_toNat_lt addr)
  simp only [tickFetchOperand, h, Instr.opcode, hread]
  rfl

theorem tickFetchOperand_st {ra : Reg} {addr : Byte} (h : decode s.ir = .st ra addr) :
    tickFetchOperand p s = .next { s with mar := s.t, phase := .exe } := by
  simp only [tickFetchOperand, h, Instr.opcode]
  rfl

/-- Settles O44: by the invariant `T` holds the 8-bit address of a load or a store. -/
theorem fetchOperandLatchesTheAddress : Obligations.FetchOperandLatchesTheAddress := by
  intro p s hrun hfo hinv
  obtain ⟨hcls, haddr⟩ := (State.phaseInv_fo_iff hfo).mp hinv
  rw [tickWith_running hrun, tickRunning_fo hfo]
  obtain ⟨ra, addr, hi | hi⟩ := Instr.eq_ld_or_st hcls
  all_goals
    rw [hi] at haddr
    have ht : s.t = zext16 addr := (Option.some.inj haddr).symm
    refine ⟨ht ▸ zext16_toNat_lt addr, ?_⟩
  · exact .inl ⟨congrArg Instr.opcode hi, tickFetchOperand_ld hi ht⟩
  · exact .inr ⟨congrArg Instr.opcode hi, tickFetchOperand_st hi⟩

/-! ### Execute -/

section
variable {ra rb : Reg} {imm addr : Byte}

theorem tickExecute_hlt (h : decode s.ir = .hlt) : tickExecute s = .next s.halt := by
  simp only [tickExecute, h]

theorem tickExecute_mov (h : decode s.ir = .mov ra rb) :
    tickExecute s = .next ((s.runAlu .nop s.t 0).toPhase .wb) := by
  simp only [tickExecute, h]

theorem tickExecute_add (h : decode s.ir = .add ra rb) :
    tickExecute s = .next ((s.runAlu .add (s.readReg ra) s.t).toPhase .wb) := by
  simp only [tickExecute, h]

theorem tickExecute_cmp (h : decode s.ir = .cmp ra rb) :
    tickExecute s = .next ((s.runAlu .cmp (s.readReg ra) s.t).toPhase .wb) := by
  simp only [tickExecute, h]

theorem tickExecute_ldl (h : decode s.ir = .ldl ra imm) :
    tickExecute s = .next ((s.runAlu .nop (zext16 imm) 0).toPhase .wb) := by
  simp only [tickExecute, h]

theorem tickExecute_ldh (h : decode s.ir = .ldh ra imm) :
    tickExecute s = .next ((s.runAlu .nop (immHigh imm) 0).toPhase .wb) := by
  simp only [tickExecute, h]

theorem tickExecute_je (h : decode s.ir = .je addr) :
    tickExecute s = .next ((s.runAlu .nop (zext16 addr) 0).toPhase .wb) := by
  simp only [tickExecute, h]

theorem tickExecute_jmp (h : decode s.ir = .jmp addr) :
    tickExecute s = .next ((s.runAlu .nop (zext16 addr) 0).toPhase .wb) := by
  simp only [tickExecute, h]

theorem tickExecute_ld (h : decode s.ir = .ld ra addr) :
    tickExecute s = .next ((s.runAlu .nop s.mdr 0).toPhase .wb) := by
  simp only [tickExecute, h]

theorem tickExecute_st (h : decode s.ir = .st ra addr) :
    tickExecute s = .next ((s.runAlu .nop (s.readReg ra) 0).toPhase .wb) := by
  simp only [tickExecute, h]

end

/-- Everything Execute can do with an instruction that has a descriptor: `hlt` halts, every other one makes
one ALU pass, in mode compare for `cmp` alone, and goes to Write-Back (R107, R109). -/
theorem tickExecute_cases (h : (decode s.ir).opcode.cls ≠ .reserved) :
    (decode s.ir = .hlt ∧ tickExecute s = .next s.halt) ∨
    (decode s.ir ≠ .hlt ∧ ∃ m a b, tickExecute s = .next ((s.runAlu m a b).toPhase .wb) ∧
      (m = .cmp → (decode s.ir).opcode = .cmp)) := by
  cases hi : decode s.ir with
  | hlt => exact .inl ⟨rfl, tickExecute_hlt hi⟩
  | mov => exact .inr ⟨nofun, _, _, _, tickExecute_mov hi, nofun⟩
  | add => exact .inr ⟨nofun, _, _, _, tickExecute_add hi, nofun⟩
  | cmp => exact .inr ⟨nofun, _, _, _, tickExecute_cmp hi, fun _ => rfl⟩
  | ldl => exact .inr ⟨nofun, _, _, _, tickExecute_ldl hi, nofun⟩
  | ldh => exact .inr ⟨nofun, _, _, _, tickExecute_ldh hi, nofun⟩
  | je => exact .inr ⟨nofun, _, _, _, tickExecute_je hi, nofun⟩
  | jmp => exact .inr ⟨nofun, _, _, _, tickExecute_jmp hi, nofun⟩
  | ld => exact .inr ⟨nofun, _, _, _, tickExecute_ld hi, nofun⟩
  | st => exact .inr ⟨nofun, _, _, _, tickExecute_st hi, nofun⟩
  | reserved2 | reserved3 | reserved4 | reserved5 | reserved6 | reserved7 =>
    exact absurd (congrArg (·.opcode.cls) hi) h

/-- What Execute leaves unchanged: memory, the latches but `T`, and every register but the flags, which only
`cmp` writes (R107, R108). -/
theorem tickExecute_frame (h : tickExecute s = .next t) (hcls : (decode s.ir).opcode.cls ≠ .reserved) :
    t.ir = s.ir ∧ t.mar = s.mar ∧ t.mdr = s.mdr ∧ t.mem = s.mem ∧
      (∀ q, q ≠ .flags → t.readReg q = s.readReg q) ∧
      ((decode s.ir).opcode ≠ .cmp → t.readReg .flags = s.readReg .flags) := by
  obtain ⟨-, heq⟩ | ⟨-, m, a, b, heq, hm⟩ := tickExecute_cases hcls
  · cases heq.symm.trans h
    exact ⟨rfl, rfl, rfl, rfl, fun _ _ => rfl, fun _ => rfl⟩
  · cases heq.symm.trans h
    exact ⟨rfl, rfl, rfl, rfl, fun _ hq => RegFile.read_write_ne s.regs _ hq,
      fun hne => aluFlags_pure (mt hm hne) a b s.regs.flags⟩

/-- The immediate of `ldh` is 256 times its field (R81). -/
theorem immHigh_toNat (imm : Byte) : (immHigh imm).toNat = imm.toNat * 256 := by
  have := imm.isLt
  rw [immHigh, BitVec.toNat_shiftLeft, zext16_toNat, Nat.shiftLeft_eq]
  omega

/-- Settles O45: the frame and the phase by the cases of Execute, the result by the instruction's equation. -/
theorem executeComputesTheResult : Obligations.ExecuteComputesTheResult := by
  intro p s hrun hexe hcls
  have htick : tickWith p s = tickExecute s := (tickWith_running hrun).trans (tickRunning_exe hexe)
  obtain ⟨t, ht, hend⟩ : ∃ t, tickExecute s = .next t ∧
      (decode s.ir ≠ .hlt → t.status = .running ∧ t.phase = .wb) := by
    obtain ⟨hhlt, ht⟩ | ⟨-, _, _, _, ht, -⟩ := tickExecute_cases hcls
    · exact ⟨_, ht, fun h => absurd hhlt h⟩
    · exact ⟨_, ht, fun _ => ⟨hrun, rfl⟩⟩
  obtain ⟨hir, hmar, hmdr, hmem, hregs, hflags⟩ := tickExecute_frame ht hcls
  refine ⟨t, htick.trans ht, hir, hmar, hmdr, hmem, hregs, hflags, fun h => ?hlt, hend, fun _ _ h => ?mov,
    fun _ _ h => ?add, fun _ _ h => ?cmp, fun _ _ h => ?ldl, fun _ _ h => ?ldh, fun _ h => ?jump,
    fun _ _ h => ?ld, fun _ _ h => ?st⟩
  case hlt => cases (tickExecute_hlt h).symm.trans ht; exact ⟨rfl, hexe, rfl⟩
  case mov => cases (tickExecute_mov h).symm.trans ht; rfl
  case add => cases (tickExecute_add h).symm.trans ht; rfl
  case cmp =>
    cases (tickExecute_cmp h).symm.trans ht
    obtain ⟨hz, -, -, hlow, -⟩ := compareAloneWritesTheTwoFlags (s.readReg _) s.t s.regs.flags
    exact ⟨rfl, hz, negFlag_compareFlags _ _, hlow⟩
  case ldl => cases (tickExecute_ldl h).symm.trans ht; exact zext16_toNat _
  case ldh => cases (tickExecute_ldh h).symm.trans ht; exact immHigh_toNat _
  case jump =>
    obtain h | h := h
    · cases (tickExecute_je h).symm.trans ht; exact zext16_toNat _
    · cases (tickExecute_jmp h).symm.trans ht; exact zext16_toNat _
  case ld => cases (tickExecute_ld h).symm.trans ht; rfl
  case st => cases (tickExecute_st h).symm.trans ht; rfl

/-! ### Write-Back -/

section
variable {ra rb : Reg} {imm addr : Byte}

theorem tickWriteBack_mov (h : decode s.ir = .mov ra rb) :
    tickWriteBack p s = .next ((s.writeReg ra s.t).toPhase .fa) := by
  simp only [tickWriteBack, h]

theorem tickWriteBack_add (h : decode s.ir = .add ra rb) :
    tickWriteBack p s = .next ((s.writeReg ra s.t).toPhase .fa) := by
  simp only [tickWriteBack, h]

theorem tickWriteBack_cmp (h : decode s.ir = .cmp ra rb) :
    tickWriteBack p s = .next (s.toPhase .fa) := by
  simp only [tickWriteBack, h]

theorem tickWriteBack_ldl (h : decode s.ir = .ldl ra imm) :
    tickWriteBack p s = .next ((s.writeReg ra (s.readReg ra ||| s.t)).toPhase .fa) := by
  simp only [tickWriteBack, h]

theorem tickWriteBack_ldh (h : decode s.ir = .ldh ra imm) :
    tickWriteBack p s = .next ((s.writeReg ra (s.readReg ra ||| s.t)).toPhase .fa) := by
  simp only [tickWriteBack, h]

theorem tickWriteBack_je (h : decode s.ir = .je addr) :
    tickWriteBack p s = .next ((if s.z then s.writeReg .pc s.t else s).toPhase .fa) := by
  simp only [tickWriteBack, h]

theorem tickWriteBack_jmp (h : decode s.ir = .jmp addr) :
    tickWriteBack p s = .next ((s.writeReg .pc s.t).toPhase .fa) := by
  simp only [tickWriteBack, h]

theorem tickWriteBack_ld (h : decode s.ir = .ld ra addr) :
    tickWriteBack p s = .next ((s.writeReg ra s.t).toPhase .fa) := by
  simp only [tickWriteBack, h]

theorem tickWriteBack_st (h : decode s.ir = .st ra addr) (hmar : s.mar = zext16 addr) :
    tickWriteBack p s = .next ((s.setMem (s.mem.writeWord addr.toNat s.t)).toPhase .fa) := by
  simp only [tickWriteBack, h, hmar, memWrite_zext16]

end

/-- Everything Write-Back can do from a state of the invariant: a store writes one word and no register, any
other instruction at most its destination select, and the next instruction's Fetch-Address follows
(R110, R111). -/
theorem tickWriteBack_cases (hwb : s.phase = .wb) (hinv : s.phaseInv p) :
    (∃ ra addr, decode s.ir = .st ra addr ∧ s.mar = zext16 addr ∧
      tickWriteBack p s = .next ((s.setMem (s.mem.writeWord addr.toNat s.t)).toPhase .fa)) ∨
    ((decode s.ir).opcode ≠ .st ∧ ∃ f : RegFile,
      tickWriteBack p s = .next ({ s with regs := f }.toPhase .fa)) := by
  obtain ⟨hcls, hhlt, haddr⟩ := (State.phaseInv_wb_iff hwb).mp hinv
  cases hi : decode s.ir with
  | st ra addr =>
    have hmar : s.mar = zext16 addr := haddr _ (congrArg dataAddr hi)
    exact .inl ⟨ra, addr, rfl, hmar, tickWriteBack_st hi hmar⟩
  | mov => exact .inr ⟨nofun, _, tickWriteBack_mov hi⟩
  | add => exact .inr ⟨nofun, _, tickWriteBack_add hi⟩
  | cmp => exact .inr ⟨nofun, s.regs, tickWriteBack_cmp hi⟩
  | ldl => exact .inr ⟨nofun, _, tickWriteBack_ldl hi⟩
  | ldh => exact .inr ⟨nofun, _, tickWriteBack_ldh hi⟩
  | je =>
    refine .inr ⟨nofun, ?_⟩
    rw [tickWriteBack_je hi]
    cases s.z with
    | true => exact ⟨s.regs.write .pc s.t, rfl⟩
    | false => exact ⟨s.regs, rfl⟩
  | jmp => exact .inr ⟨nofun, _, tickWriteBack_jmp hi⟩
  | ld => exact .inr ⟨nofun, _, tickWriteBack_ld hi⟩
  | hlt => exact absurd hi hhlt
  | reserved2 | reserved3 | reserved4 | reserved5 | reserved6 | reserved7 =>
    exact absurd (congrArg (·.opcode.cls) hi) hcls

/-- Settles O46: what is common to the cases of Write-Back, and the registers by the instruction's equation. -/
theorem writeBackCommitsTheResult : Obligations.WriteBackCommitsTheResult := by
  intro p s hrun hwb hinv
  have htick : tickWith p s = tickWriteBack p s := (tickWith_running hrun).trans (tickRunning_wb hwb)
  obtain ⟨t, ht, hfa, hstatus, hlatches, hmem⟩ : ∃ t, tickWriteBack p s = .next t ∧ t.phase = .fa ∧
      t.status = .running ∧ (t.t = s.t ∧ t.ir = s.ir ∧ t.mar = s.mar ∧ t.mdr = s.mdr) ∧
      ∀ a, t.mem.readWord a =
        if (decode s.ir).opcode = .st ∧ a = s.mar.toNat then s.t else s.mem.readWord a := by
    obtain ⟨ra, addr, hst, hmar, ht⟩ | ⟨hne, f, ht⟩ := tickWriteBack_cases hwb hinv
    · refine ⟨_, ht, rfl, hrun, ⟨rfl, rfl, rfl, rfl⟩, fun a => ?_⟩
      rw [hst, hmar, zext16_toNat]
      exact (Memory.readWord_writeWord ..).trans (if_congr (and_iff_right rfl).symm rfl rfl)
    · exact ⟨_, ht, rfl, hrun, ⟨rfl, rfl, rfl, rfl⟩, fun a => (if_neg fun h => hne h.1).symm⟩
  obtain ⟨htt, hir, hmar, hmdr⟩ := hlatches
  refine ⟨t, htick.trans ht, hfa, hstatus, htt, hir, hmar, hmdr, fun q => ?_, hmem⟩
  obtain ⟨hcls, hhlt, haddr⟩ := (State.phaseInv_wb_iff hwb).mp hinv
  cases hi : decode s.ir with
  | mov => cases (tickWriteBack_mov hi).symm.trans ht; exact RegFile.read_write ..
  | add => cases (tickWriteBack_add hi).symm.trans ht; exact RegFile.read_write ..
  | ld => cases (tickWriteBack_ld hi).symm.trans ht; exact RegFile.read_write ..
  | ldl => cases (tickWriteBack_ldl hi).symm.trans ht; exact RegFile.read_write ..
  | ldh => cases (tickWriteBack_ldh hi).symm.trans ht; exact RegFile.read_write ..
  | jmp => cases (tickWriteBack_jmp hi).symm.trans ht; exact RegFile.read_write ..
  | je =>
    cases (tickWriteBack_je hi).symm.trans ht
    cases hz : s.z with
    | true => exact (RegFile.read_write ..).trans (if_congr (and_iff_left rfl).symm rfl rfl)
    | false => exact (if_neg fun h => nomatch h.2).symm
  | cmp => cases (tickWriteBack_cmp hi).symm.trans ht; rfl
  | st => cases (tickWriteBack_st hi (haddr _ (congrArg dataAddr hi))).symm.trans ht; rfl
  | hlt => exact absurd hi hhlt
  | reserved2 | reserved3 | reserved4 | reserved5 | reserved6 | reserved7 =>
    exact absurd (congrArg (·.opcode.cls) hi) hcls

end Sys2Proof.Machine
end

section
/-! PROOFS of the statements about the whole cycle (40_cycle_and_alu.md): the invariant, the transitions, the
clock steps of one instruction, and the agreement of the two levels. -/

namespace Sys2Proof.Machine

open Sys2Proof Host

variable {p : Config.OobPolicy} {s t u v : State} {n : Nat} {w : Word}

/-- A running state keeps the invariant when its memory is canonical and its latches fit its phase. -/
theorem State.coherent_of_phaseInv (hmem : t.mem.wf = true) (hrun : t.status = .running)
    (hinv : t.phaseInv p) : t.coherent p :=
  (State.coherent_running_iff hrun).mpr ⟨hmem, hinv⟩

/-! ### One clock step from a state of the invariant

Each lemma gives the answer of one state of the cycle: that it is coherent, and where the cycle goes. -/

theorem exists_tickWith_fa (hc : s.coherent p) (hrun : s.status = .running) (hfa : s.phase = .fa) :
    ∃ t, tickWith p s = .next t ∧ t.coherent p ∧ t.phase = .fw ∧ t.status = .running := by
  obtain ⟨hmem, -⟩ := (State.coherent_running_iff hrun).mp hc
  exact ⟨_, fetchAddressLatchesTheProgramCounter p s hrun hfa,
    State.coherent_of_phaseInv hmem hrun ((State.phaseInv_fw_iff rfl).mpr rfl), rfl, hrun⟩

theorem exists_tickWith_fw (hc : s.coherent p) (hrun : s.status = .running) (hfw : s.phase = .fw) :
    ∃ t, tickWith p s = .next t ∧ t.coherent p ∧
      (resolveAddr p s.pc = none ∧ t.status = .faulted (.fetchOutOfRange s.pc) ∨
        resolveAddr p s.pc ≠ none ∧ t.phase = .dec ∧ t.status = .running) := by
  obtain ⟨hmem, hinv⟩ := (State.coherent_running_iff hrun).mp hc
  have ht : s.t = s.pc := (State.phaseInv_fw_iff hfw).mp hinv
  obtain ⟨hsome, hnone⟩ := fetchWordReadsMemory p s hrun hfw
  cases hread : memRead p s.mem s.pc with
  | none =>
    have haddr : resolveAddr p s.pc = none := (memRead_eq_none p s.mem s.pc).mp hread
    exact ⟨_, hnone (ht ▸ hread),
      (State.coherent_fetchOutOfRange_iff rfl).mpr ⟨hmem, hfw, ht.symm, rfl, rfl, ht ▸ haddr⟩,
      .inl ⟨haddr, by rw [ht]⟩⟩
  | some w =>
    have haddr : resolveAddr p s.pc ≠ none := fun h =>
      nomatch hread.symm.trans ((memRead_eq_none p s.mem s.pc).mpr h)
    exact ⟨_, hsome w (ht ▸ hread),
      State.coherent_of_phaseInv hmem hrun ((State.phaseInv_dec_iff rfl).mpr ⟨ht, rfl, hread⟩),
      .inr ⟨haddr, rfl, hrun⟩⟩

theorem exists_tickWith_dec (hc : s.coherent p) (hrun : s.status = .running) (hdec : s.phase = .dec) :
    ∃ t, tickWith p s = .next t ∧ t.coherent p ∧
      ((decode s.mdr).opcode.cls = .reserved ∧ t.status = .faulted (.decodeFailure s.mdr) ∨
        (decode s.mdr).opcode.cls = .mem ∧ t.phase = .fo ∧ t.status = .running ∨
        ((decode s.mdr).opcode.cls = .rr ∨ (decode s.mdr).opcode.cls = .other) ∧
          t.phase = .exe ∧ t.status = .running) := by
  obtain ⟨hmem, hinv⟩ := (State.coherent_running_iff hrun).mp hc
  obtain ⟨hmar, ht, hread⟩ := (State.phaseInv_dec_iff hdec).mp hinv
  have hdone := tickWith_dec (p := p) hrun hdec
  have hexe (hres : (decode s.mdr).opcode.cls ≠ .reserved) (hno : (decode s.mdr).opcode.cls ≠ .mem) :
      (decode s.mdr).opcode.cls ≠ .reserved ∧ ∀ a, dataAddr (decode s.mdr) = some a → s.mar = a :=
    ⟨hres, fun a ha => nomatch (dataAddr_eq_none hno).symm.trans ha⟩
  cases hcls : (decode s.mdr).opcode.cls with
  | reserved =>
    rw [tickDecode_reserved hcls] at hdone
    exact ⟨_, hdone,
      (State.coherent_decodeFailure_iff rfl).mpr ⟨hmem, rfl, hcls, rfl, rfl, hmar, ht, hread⟩,
      .inl ⟨rfl, rfl⟩⟩
  | mem =>
    rw [tickDecode_mem hcls] at hdone
    exact ⟨_, hdone,
      State.coherent_of_phaseInv hmem hrun ((State.phaseInv_fo_iff rfl).mpr ⟨hcls, dataAddr_decode hcls⟩),
      .inr (.inl ⟨rfl, rfl, hrun⟩)⟩
  | rr =>
    rw [tickDecode_rr hcls] at hdone
    have hexe := hexe (by rw [hcls]; nofun) (by rw [hcls]; nofun)
    exact ⟨_, hdone, State.coherent_of_phaseInv hmem hrun ((State.phaseInv_exe_iff rfl).mpr hexe),
      .inr (.inr ⟨.inl rfl, rfl, hrun⟩)⟩
  | other =>
    rw [tickDecode_other hcls] at hdone
    have hexe := hexe (by rw [hcls]; nofun) (by rw [hcls]; nofun)
    exact ⟨_, hdone, State.coherent_of_phaseInv hmem hrun ((State.phaseInv_exe_iff rfl).mpr hexe),
      .inr (.inr ⟨.inr rfl, rfl, hrun⟩)⟩

theorem exists_tickWith_fo (hc : s.coherent p) (hrun : s.status = .running) (hfo : s.phase = .fo) :
    ∃ t, tickWith p s = .next t ∧ t.coherent p ∧ t.phase = .exe ∧ t.status = .running := by
  obtain ⟨hmem, hinv⟩ := (State.coherent_running_iff hrun).mp hc
  obtain ⟨hcls, haddr⟩ := (State.phaseInv_fo_iff hfo).mp hinv
  have hexe : (decode s.ir).opcode.cls ≠ .reserved ∧ ∀ a, dataAddr (decode s.ir) = some a → s.t = a :=
    ⟨by rw [hcls]; nofun, fun a ha => Option.some.inj (haddr.symm.trans ha)⟩
  obtain ⟨-, ⟨-, ht⟩ | ⟨-, ht⟩⟩ := fetchOperandLatchesTheAddress p s hrun hfo hinv
  all_goals
    exact ⟨_, ht, State.coherent_of_phaseInv hmem hrun ((State.phaseInv_exe_iff rfl).mpr hexe), rfl, hrun⟩

theorem exists_tickWith_exe (hc : s.coherent p) (hrun : s.status = .running) (hexe : s.phase = .exe) :
    ∃ t, tickWith p s = .next t ∧ t.coherent p ∧
      (decode s.ir = .hlt ∧ t.status = .halted ∨
        decode s.ir ≠ .hlt ∧ t.phase = .wb ∧ t.status = .running) := by
  obtain ⟨hmem, hinv⟩ := (State.coherent_running_iff hrun).mp hc
  obtain ⟨hcls, haddr⟩ := (State.phaseInv_exe_iff hexe).mp hinv
  rw [tickWith_running hrun, tickRunning_exe hexe]
  obtain ⟨hhlt, ht⟩ | ⟨hne, m, a, b, ht, -⟩ := tickExecute_cases hcls
  · exact ⟨_, ht, (State.coherent_halted_iff rfl).mpr ⟨hmem, hexe, hhlt⟩, .inl ⟨hhlt, rfl⟩⟩
  · exact ⟨_, ht,
      State.coherent_of_phaseInv hmem hrun ((State.phaseInv_wb_iff rfl).mpr ⟨hcls, hne, haddr⟩),
      .inr ⟨hne, rfl, hrun⟩⟩

theorem exists_tickWith_wb (hc : s.coherent p) (hrun : s.status = .running) (hwb : s.phase = .wb) :
    ∃ t, tickWith p s = .next t ∧ t.coherent p ∧ t.phase = .fa ∧ t.status = .running := by
  obtain ⟨hmem, hinv⟩ := (State.coherent_running_iff hrun).mp hc
  rw [tickWith_running hrun, tickRunning_wb hwb]
  obtain ⟨ra, addr, -, -, ht⟩ | ⟨-, f, ht⟩ := tickWriteBack_cases hwb hinv
  · have hwf : (s.mem.writeWord addr.toNat s.t).wf = true := s.mem.wf_writeWord _ _ addr.isLt hmem
    exact ⟨_, ht, State.coherent_of_boundary p hwf hrun rfl, rfl, hrun⟩
  · exact ⟨_, ht, State.coherent_of_boundary p hmem hrun rfl, rfl, hrun⟩

/-- A machine in a state of the invariant always ticks, into a state of the invariant (R112, R187). -/
theorem exists_tickWith_coherent (hc : s.coherent p) : ∃ t, tickWith p s = .next t ∧ t.coherent p := by
  by_cases hrun : s.status = .running
  · cases hp : s.phase with
    | fa => obtain ⟨t, ht, hct, -⟩ := exists_tickWith_fa hc hrun hp; exact ⟨t, ht, hct⟩
    | fw => obtain ⟨t, ht, hct, -⟩ := exists_tickWith_fw hc hrun hp; exact ⟨t, ht, hct⟩
    | dec => obtain ⟨t, ht, hct, -⟩ := exists_tickWith_dec hc hrun hp; exact ⟨t, ht, hct⟩
    | fo => obtain ⟨t, ht, hct, -⟩ := exists_tickWith_fo hc hrun hp; exact ⟨t, ht, hct⟩
    | exe => obtain ⟨t, ht, hct, -⟩ := exists_tickWith_exe hc hrun hp; exact ⟨t, ht, hct⟩
    | wb => obtain ⟨t, ht, hct, -⟩ := exists_tickWith_wb hc hrun hp; exact ⟨t, ht, hct⟩
  · exact ⟨s, tickWith_stopped hrun, hc⟩

/-- Settles O53: each state of the cycle leaves what the next one asks for. -/
theorem everyTickKeepsCoherence : Obligations.EveryTickKeepsCoherence := by
  intro p s s' hc h
  obtain ⟨t, ht, hct⟩ := exists_tickWith_coherent hc
  cases h.symm.trans ht
  exact hct

/-- A clock step has one answer: what some answer satisfies, every answer satisfies. -/
theorem of_tickWith_eq {P : State → Prop} (h : tickWith p s = .next t)
    (hex : ∃ t', tickWith p s = .next t' ∧ t'.coherent p ∧ P t') : P t := by
  obtain ⟨t', ht, -, hP⟩ := hex
  cases h.symm.trans ht
  exact hP

/-- Settles O48, transition by transition. -/
theorem theCycleFollowsItsTransitions : Obligations.TheCycleFollowsItsTransitions := by
  refine ⟨rfl, fun p s t hc hrun h => ⟨fun hp => ?fa, fun hp hsome => ?fetch, fun hp hnone => ?fetchFault,
    fun hp hop => ?operand, fun hp hcls => ?decodeFault, fun hp hcls => ?decode, fun hp => ?fo,
    fun hp hne => ?execute, fun hp hhlt => ?halt, fun hp => ?wb⟩⟩
  case fa => exact of_tickWith_eq h (exists_tickWith_fa hc hrun hp)
  case fetch =>
    obtain ⟨hnone, -⟩ | ⟨-, hend⟩ := of_tickWith_eq h (exists_tickWith_fw hc hrun hp)
    · exact absurd hnone hsome
    · exact hend
  case fetchFault =>
    obtain ⟨-, hend⟩ | ⟨hsome, -⟩ := of_tickWith_eq h (exists_tickWith_fw hc hrun hp)
    · exact hend
    · exact absurd hnone hsome
  case operand =>
    have hmem := (Opcode.cls_eq_mem_iff _).mpr hop
    simpa [hmem] using of_tickWith_eq h (exists_tickWith_dec hc hrun hp)
  case decodeFault => simpa [hcls] using of_tickWith_eq h (exists_tickWith_dec hc hrun hp)
  case decode =>
    have hend := of_tickWith_eq h (exists_tickWith_dec hc hrun hp)
    obtain hcls | hcls := hcls
    · simpa [hcls] using hend
    · simpa [hcls] using hend
  case fo => exact of_tickWith_eq h (exists_tickWith_fo hc hrun hp)
  case execute =>
    obtain ⟨hhlt, -⟩ | ⟨-, hend⟩ := of_tickWith_eq h (exists_tickWith_exe hc hrun hp)
    · exact absurd hhlt hne
    · exact hend
  case halt =>
    obtain ⟨-, hend⟩ | ⟨hne, -⟩ := of_tickWith_eq h (exists_tickWith_exe hc hrun hp)
    · exact hend
    · exact absurd hhlt hne
  case wb => exact of_tickWith_eq h (exists_tickWith_wb hc hrun hp)

/-! ### The clock steps left of an instruction -/

theorem State.atBoundary_iff (s : State) :
    s.atBoundary = true ↔ (s.status = .running → s.phase = .fa) := by
  simp only [State.atBoundary, Bool.or_eq_true, beq_iff_eq, bne_iff_ne, ne_eq]
  tauto

theorem State.atBoundary_eq_false_iff (s : State) :
    s.atBoundary = false ↔ s.status = .running ∧ s.phase ≠ .fa := by
  rw [← Bool.not_eq_true, State.atBoundary_iff, Classical.not_imp]

/-- `EndsIn p n s t`: from `s` the instruction in progress ends after exactly `n` clock steps, in `t`; the
states between are inside the instruction (R113). -/
inductive EndsIn (p : Config.OobPolicy) : Nat → State → State → Prop where
  | last {s t : State} (h : tickWith p s = .next t) (ht : t.atBoundary = true) : EndsIn p 1 s t
  | more {n : Nat} {s u t : State} (h : tickWith p s = .next u) (hu : u.atBoundary = false)
      (hn : EndsIn p n u t) : EndsIn p (n + 1) s t

theorem EndsIn.pos (h : EndsIn p n s t) : 0 < n := by
  cases h <;> exact Nat.succ_pos _

/-- The end is what that many clock calls reach (R122). -/
theorem EndsIn.ticksWith_eq (h : EndsIn p n s t) : ticksWith p n s = .next t := by
  induction h with
  | last h _ => exact ticksWith_succ h 0
  | more h _ _ ih => exact (ticksWith_succ h _).trans ih

theorem EndsIn.atBoundary (h : EndsIn p n s t) : t.atBoundary = true := by
  induction h with
  | last _ ht => exact ht
  | more _ _ _ ih => exact ih

/-- Fewer clock calls stay inside the instruction (R113). -/
theorem EndsIn.inside_of_lt (h : EndsIn p n s t) {k : Nat} (hpos : 0 < k) (hk : k < n) :
    ∃ u, ticksWith p k s = .next u ∧ u.status = .running ∧ u.phase ≠ .fa := by
  induction h generalizing k with
  | last => omega
  | @more n s u t h hu _ ih =>
    obtain ⟨j, rfl⟩ := Nat.exists_eq_succ_of_ne_zero (Nat.ne_of_gt hpos)
    rw [ticksWith_succ h]
    cases j with
    | zero => exact ⟨u, rfl, u.atBoundary_eq_false_iff.mp hu⟩
    | succ j => exact ih (Nat.succ_pos j) (Nat.lt_of_succ_lt_succ hk)

/-- With enough fuel, finishing the instruction finds the same end (log 1). -/
theorem EndsIn.finishInstr_eq (h : EndsIn p n s t) {fuel : Nat} (hfuel : n ≤ fuel) :
    finishInstr p fuel s = .next t := by
  induction h generalizing fuel with
  | last h ht =>
    obtain ⟨fuel, rfl⟩ := Nat.exists_eq_add_of_le' hfuel
    obtain ⟨-, heq⟩ | ⟨hne, -⟩ := finishInstr_succ h fuel
    · exact heq
    · exact nomatch ht.symm.trans hne
  | more h hu _ ih =>
    obtain ⟨fuel, rfl⟩ := Nat.exists_eq_add_of_le' (Nat.le_trans (Nat.le_add_left 1 _) hfuel)
    obtain ⟨hb, -⟩ | ⟨-, heq⟩ := finishInstr_succ h fuel
    · exact nomatch hu.symm.trans hb
    · exact heq.trans (ih (Nat.le_of_succ_le_succ hfuel))

/-- At most so many clock steps are left of an instruction, by the state of the cycle (R100). -/
def Phase.stepsLeft : Phase → Nat
  | .fa => 6
  | .fw => 5
  | .dec => 4
  | .fo => 3
  | .exe => 2
  | .wb => 1

/-- Every clock step of a running machine ends the instruction or brings its end nearer (R100). -/
theorem exists_tickWith_progress (hc : s.coherent p) (hrun : s.status = .running) :
    ∃ t, tickWith p s = .next t ∧ t.coherent p ∧
      (t.atBoundary = true ∨
        t.atBoundary = false ∧ t.status = .running ∧ t.phase.stepsLeft < s.phase.stepsLeft) := by
  obtain ⟨t, ht, hct⟩ := exists_tickWith_coherent hc
  refine ⟨t, ht, hct, ?_⟩
  cases hb : t.atBoundary with
  | true => exact .inl rfl
  | false =>
    obtain ⟨htrun, htfa⟩ := t.atBoundary_eq_false_iff.mp hb
    refine .inr ⟨rfl, htrun, ?_⟩
    cases hp : s.phase with
    | fa =>
      obtain ⟨hph, -⟩ := of_tickWith_eq ht (exists_tickWith_fa hc hrun hp)
      rw [hph]; decide
    | fw =>
      obtain ⟨-, hend⟩ | ⟨-, hph, -⟩ := of_tickWith_eq ht (exists_tickWith_fw hc hrun hp)
      · exact nomatch htrun.symm.trans hend
      · rw [hph]; decide
    | dec =>
      obtain ⟨-, hend⟩ | ⟨-, hph, -⟩ | ⟨-, hph, -⟩ := of_tickWith_eq ht (exists_tickWith_dec hc hrun hp)
      · exact nomatch htrun.symm.trans hend
      · rw [hph]; decide
      · rw [hph]; decide
    | fo =>
      obtain ⟨hph, -⟩ := of_tickWith_eq ht (exists_tickWith_fo hc hrun hp)
      rw [hph]; decide
    | exe =>
      obtain ⟨-, hend⟩ | ⟨-, hph, -⟩ := of_tickWith_eq ht (exists_tickWith_exe hc hrun hp)
      · exact nomatch htrun.symm.trans hend
      · rw [hph]; decide
    | wb =>
      obtain ⟨hph, -⟩ := of_tickWith_eq ht (exists_tickWith_wb hc hrun hp)
      exact absurd hph htfa

/-- From every running state of the invariant the instruction in progress ends, within the clock steps left
of it: each step ends it or lowers that bound. -/
theorem exists_endsIn (hc : s.coherent p) (hrun : s.status = .running) :
    ∃ n t, n ≤ s.phase.stepsLeft ∧ EndsIn p n s t := by
  induction hk : s.phase.stepsLeft using Nat.strong_induction_on generalizing s with
  | _ k ih =>
    obtain ⟨t, ht, hct, hb | ⟨hb, htrun, hlt⟩⟩ := exists_tickWith_progress hc hrun
    · have hpos : 1 ≤ s.phase.stepsLeft := by cases s.phase <;> decide
      exact ⟨1, t, hk ▸ hpos, .last ht hb⟩
    · obtain ⟨n, u, hn, hend⟩ := ih _ (hk ▸ hlt) hct htrun rfl
      exact ⟨n + 1, u, by omega, .more ht hb hend⟩

/-- Inside an instruction at most five clock steps are left of it (log 1). -/
theorem stepsLeft_le_five {ph : Phase} (h : ph ≠ .fa) : ph.stepsLeft ≤ 5 := by
  cases ph with
  | fa => exact absurd rfl h
  | fw | dec | fo | exe | wb => decide

/-- A step from inside an instruction runs the clock steps left of it (log 1). -/
theorem exists_endsIn_inside (hc : s.coherent p) (hrun : s.status = .running) (hfa : s.phase ≠ .fa) :
    ∃ n t, n ≤ 5 ∧ EndsIn p n s t ∧ stepWith p s = .next t := by
  obtain ⟨n, t, hn, hend⟩ := exists_endsIn hc hrun
  have hn5 : n ≤ 5 := Nat.le_trans hn (stepsLeft_le_five hfa)
  exact ⟨n, t, hn5, hend, (stepWith_inside hrun hfa).trans (hend.finishInstr_eq hn5)⟩

/-- Settles O51. -/
theorem aStepFinishesTheInstructionInProgress : Obligations.AStepFinishesTheInstructionInProgress := by
  intro p s hc hrun hfa
  obtain ⟨n, t, hn, hend, hstep⟩ := exists_endsIn_inside hc hrun hfa
  refine ⟨n, t, hend.pos, hn, hstep, hend.ticksWith_eq, t.atBoundary_iff.mp hend.atBoundary,
    fun k u hpos hk hu => ?_⟩
  obtain ⟨u', hu', hinside⟩ := hend.inside_of_lt hpos hk
  cases hu.symm.trans hu'
  exact hinside

/-! ### The clock steps of a whole instruction -/

/-- The first two clock steps fetch the word, of which `IR` does not know yet (R101, R102). -/
theorem EndsIn.of_fetched (hrun : s.status = .running) (hfa : s.phase = .fa)
    (hread : memRead p s.mem s.pc = some w) (h : EndsIn p n ((s.fetched s.pc w).setIr s.ir) t) :
    EndsIn p (n + 2) s t := by
  have haddr := fetchAddressLatchesTheProgramCounter p s hrun hfa
  have hword := (fetchWordReadsMemory p { s with t := s.pc, phase := .fw } hrun rfl).1 w hread
  exact .more haddr ((State.atBoundary_eq_false_iff _).mpr ⟨hrun, nofun⟩)
    (.more hword ((State.atBoundary_eq_false_iff _).mpr ⟨hrun, nofun⟩) h)

/-- The third clock step of an instruction is Decode (R103 to R105). -/
theorem tickWith_fetched (hrun : s.status = .running) :
    tickWith p ((s.fetched s.pc w).setIr s.ir) = .next (tickDecode ((s.fetched s.pc w).setIr s.ir)) :=
  tickWith_dec (s := (s.fetched s.pc w).setIr s.ir) hrun rfl

theorem EndsIn.of_decoded (hrun : s.status = .running) (hfa : s.phase = .fa)
    (hread : memRead p s.mem s.pc = some w) (hdec : tickDecode ((s.fetched s.pc w).setIr s.ir) = u)
    (hu : u.status = .running ∧ u.phase ≠ .fa) (h : EndsIn p n u t) : EndsIn p (n + 3) s t :=
  .of_fetched hrun hfa hread
    (.more ((tickWith_fetched hrun).trans (congrArg _ hdec)) (u.atBoundary_eq_false_iff.mpr hu) h)

/-- A decode failure ends the instruction in its third clock step (R185). -/
theorem EndsIn.of_decodeFailure (hrun : s.status = .running) (hfa : s.phase = .fa)
    (hread : memRead p s.mem s.pc = some w) (hcls : (decode w).opcode.cls = .reserved) :
    EndsIn p 3 s ((s.fetched s.pc w).decodeFailure w) :=
  .of_fetched hrun hfa hread
    (.last ((tickWith_fetched hrun).trans (congrArg _ (tickDecode_reserved hcls))) rfl)

theorem EndsIn.of_rr (hrun : s.status = .running) (hfa : s.phase = .fa)
    (hread : memRead p s.mem s.pc = some w) (hcls : (decode w).opcode.cls = .rr)
    (h : EndsIn p n (((s.fetched s.pc w).commitPc.runAlu .nop
      ((s.fetched s.pc w).commitPc.readReg (Reg.ofCode (rbField w))) 0).toPhase .exe) t) :
    EndsIn p (n + 3) s t :=
  .of_decoded hrun hfa hread (tickDecode_rr hcls) ⟨hrun, nofun⟩ h

theorem EndsIn.of_other (hrun : s.status = .running) (hfa : s.phase = .fa)
    (hread : memRead p s.mem s.pc = some w) (hcls : (decode w).opcode.cls = .other)
    (h : EndsIn p n ((s.fetched s.pc w).commitPc.toPhase .exe) t) : EndsIn p (n + 3) s t :=
  .of_decoded hrun hfa hread (tickDecode_other hcls) ⟨hrun, nofun⟩ h

theorem EndsIn.of_mem (hrun : s.status = .running) (hfa : s.phase = .fa)
    (hread : memRead p s.mem s.pc = some w) (hcls : (decode w).opcode.cls = .mem)
    (h : EndsIn p n (((s.fetched s.pc w).commitPc.runAlu .nop (zext16 (imm8Field w)) 0).toPhase .fo) t) :
    EndsIn p (n + 3) s t :=
  .of_decoded hrun hfa hread (tickDecode_mem hcls) ⟨hrun, nofun⟩ h

/-- Execute and Write-Back are the last two clock steps (R107, R110). -/
theorem EndsIn.of_executed {m : AluMode} {a b : Word} (hrun : u.status = .running) (hexe : u.phase = .exe)
    (hex : tickExecute u = .next ((u.runAlu m a b).toPhase .wb))
    (hback : tickWriteBack p ((u.runAlu m a b).toPhase .wb) = .next t) (ht : t.phase = .fa) :
    EndsIn p 2 u t :=
  .more ((tickWith_running hrun).trans ((tickRunning_exe hexe).trans hex))
    ((State.atBoundary_eq_false_iff _).mpr ⟨hrun, nofun⟩)
    (.last
      ((tickWith_running (s := (u.runAlu m a b).toPhase .wb) hrun).trans ((tickRunning_wb rfl).trans hback))
      (t.atBoundary_iff.mpr fun _ => ht))

/-- The halt ends its instruction in Execute (R109; C2 and D10, log 14). -/
theorem EndsIn.of_halted (hrun : u.status = .running) (hexe : u.phase = .exe) (hi : decode u.ir = .hlt) :
    EndsIn p 1 u u.halt :=
  .last ((tickWith_running hrun).trans ((tickRunning_exe hexe).trans (tickExecute_hlt hi)))
    (u.halt.atBoundary_iff.mpr nofun)

/-- A fetch fault ends the instruction in its second clock step (R186). -/
theorem EndsIn.of_fetchFault (hrun : s.status = .running) (hfa : s.phase = .fa)
    (hread : memRead p s.mem s.pc = none) : EndsIn p 2 s (s.fetchFault s.pc) := by
  have haddr := fetchAddressLatchesTheProgramCounter p s hrun hfa
  have hword := (fetchWordReadsMemory p { s with t := s.pc, phase := .fw } hrun rfl).2 hread
  exact .more haddr ((State.atBoundary_eq_false_iff _).mpr ⟨hrun, nofun⟩) (.last hword rfl)

/-- Fetch-Operand stands between Decode and the last two clock steps of a load or store (R106). -/
theorem EndsIn.of_operand (hrun : u.status = .running) (hfo : u.phase = .fo)
    (hop : tickFetchOperand p u = .next v) (hv : v.status = .running ∧ v.phase ≠ .fa)
    (h : EndsIn p n v t) : EndsIn p (n + 1) u t :=
  .more ((tickWith_running hrun).trans ((tickRunning_fo hfo).trans hop))
    (v.atBoundary_eq_false_iff.mpr hv) h

/-- A pass in mode nop changes the latch `T` alone (R30, R114). -/
theorem State.runAlu_nop (s : State) (a b : Word) : s.runAlu .nop a b = { s with t := a } := rfl

/-- R121 for one fetched word: the clock steps of R113 end in the very state that its meaning answers. -/
theorem exec_endsIn (hrun : s.status = .running) (hfa : s.phase = .fa)
    (hread : memRead p s.mem s.pc = some w) :
    ∃ t, exec (decode w) (s.fetched s.pc w) = .next t ∧ EndsIn p (decode w).opcode.clockSteps s t := by
  have hcls {i : Instr} {c : InstrClass} (hi : decode w = i) (hc : i.opcode.cls = c) :
      (decode w).opcode.cls = c := hi ▸ hc
  have hrb {i : Instr} {ra rb : Reg} (hi : decode w = i) (hops : i.regOperands = [ra, rb]) :
      Reg.ofCode (rbField w) = rb := ofCode_rbField_of_regOperands (hi ▸ hops)
  have haddr {i : Instr} {a : Word} (hi : decode w = i) (hc : i.opcode.cls = .mem)
      (ha : dataAddr i = some a) : zext16 (imm8Field w) = a :=
    Option.some.inj ((dataAddr_decode (hcls hi hc)).symm.trans (hi ▸ ha))
  have hreserved (hc : (decode w).opcode.cls = .reserved) :
      ∃ t, exec (decode w) (s.fetched s.pc w) = .next t ∧ EndsIn p (decode w).opcode.clockSteps s t := by
    refine ⟨_, exec_reserved hc _, ?_⟩
    rw [encode_decode_of_reserved hc, Opcode.clockSteps_of_reserved hc]
    exact .of_decodeFailure hrun hfa hread hc
  cases hi : decode w with
  | mov ra rb =>
    refine ⟨_, exec_mov .., .of_rr hrun hfa hread (hcls hi rfl) ?_⟩
    rw [hrb hi rfl]
    exact .of_executed hrun rfl (tickExecute_mov hi) (tickWriteBack_mov hi) rfl
  | add ra rb =>
    refine ⟨_, exec_add .., .of_rr hrun hfa hread (hcls hi rfl) ?_⟩
    rw [hrb hi rfl]
    exact .of_executed hrun rfl (tickExecute_add hi) (tickWriteBack_add hi) rfl
  | cmp ra rb =>
    refine ⟨_, exec_cmp .., .of_rr hrun hfa hread (hcls hi rfl) ?_⟩
    rw [hrb hi rfl]
    exact .of_executed hrun rfl (tickExecute_cmp hi) (tickWriteBack_cmp hi) rfl
  | ldl ra imm =>
    refine ⟨_, exec_ldl .., .of_other hrun hfa hread (hcls hi rfl)
      (.of_executed hrun rfl (tickExecute_ldl hi) (Eq.trans (tickWriteBack_ldl hi) ?_) rfl)⟩
    simp only [State.runAlu_nop]
    rfl
  | ldh ra imm =>
    refine ⟨_, exec_ldh .., .of_other hrun hfa hread (hcls hi rfl)
      (.of_executed hrun rfl (tickExecute_ldh hi) (Eq.trans (tickWriteBack_ldh hi) ?_) rfl)⟩
    simp only [State.runAlu_nop]
    rfl
  | je addr =>
    refine ⟨_, exec_je .., .of_other hrun hfa hread (hcls hi rfl)
      (.of_executed hrun rfl (tickExecute_je hi) (Eq.trans (tickWriteBack_je hi) ?_) rfl)⟩
    simp only [apply_ite (State.toPhase · .fa)]
    rfl
  | jmp addr =>
    exact ⟨_, exec_jmp .., .of_other hrun hfa hread (hcls hi rfl)
      (.of_executed hrun rfl (tickExecute_jmp hi) (tickWriteBack_jmp hi) rfl)⟩
  | ld ra addr =>
    refine ⟨_, exec_ld .., .of_mem hrun hfa hread (hcls hi rfl) ?_⟩
    rw [haddr hi rfl rfl, ← zext16_toNat addr]
    exact .of_operand hrun rfl (tickFetchOperand_ld hi rfl) ⟨hrun, nofun⟩
      (.of_executed hrun rfl (tickExecute_ld hi) (tickWriteBack_ld hi) rfl)
  | st ra addr =>
    refine ⟨_, exec_st .., .of_mem hrun hfa hread (hcls hi rfl) ?_⟩
    rw [haddr hi rfl rfl]
    exact .of_operand hrun rfl (tickFetchOperand_st hi) ⟨hrun, nofun⟩
      (.of_executed hrun rfl (tickExecute_st hi) (tickWriteBack_st hi rfl) rfl)
  | hlt =>
    exact ⟨_, exec_hlt .., .of_other hrun hfa hread (hcls hi rfl) (.of_halted hrun rfl hi)⟩
  | reserved2 | reserved3 | reserved4 | reserved5 | reserved6 | reserved7 =>
    exact hi ▸ hreserved (hcls hi rfl)

/-! ### The two levels agree -/

theorem clockStepsAt_none (h : memRead p s.mem s.pc = none) : clockStepsAt p s = 2 := by
  simp only [clockStepsAt, h]

theorem clockStepsAt_some (h : memRead p s.mem s.pc = some w) :
    clockStepsAt p s = (decode w).opcode.clockSteps := by
  simp only [clockStepsAt, h]

/-- From a boundary the instruction step answers what the clock steps of R113 end in (R121). -/
theorem stepWith_endsIn (hrun : s.status = .running) (hfa : s.phase = .fa) :
    ∃ t, stepWith p s = .next t ∧ EndsIn p (clockStepsAt p s) s t := by
  rw [stepWith_fa hrun hfa]
  cases hread : memRead p s.mem s.pc with
  | none =>
    rw [clockStepsAt_none hread]
    exact ⟨_, instrStep_none hread, .of_fetchFault hrun hfa hread⟩
  | some w =>
    rw [clockStepsAt_some hread, instrStep_some hread]
    exact exec_endsIn hrun hfa hread

/-- Settles O49. -/
theorem tickAndStepAgree : Obligations.TickAndStepAgree := by
  intro p s hrun hfa
  obtain ⟨t, hstep, hend⟩ := stepWith_endsIn (p := p) hrun hfa
  exact ⟨hend.ticksWith_eq.trans hstep.symm, t, hstep, t.atBoundary_iff.mp hend.atBoundary⟩

/-- Settles O50: the counts are those of the ends, and the table's by the opcode's number. -/
theorem clockStepCountsAreExact : Obligations.ClockStepCountsAreExact := by
  refine ⟨fun p s hrun hfa => ?_, fun p s => ⟨fun w hread => ?_, clockStepsAt_none⟩⟩
  · obtain ⟨t, -, hend⟩ := stepWith_endsIn (p := p) hrun hfa
    exact ⟨⟨t, hend.ticksWith_eq, t.atBoundary_iff.mp hend.atBoundary⟩, fun k hpos hk =>
      hend.inside_of_lt hpos hk⟩
  · rw [clockStepsAt_some hread, Opcode.clockSteps_eq, field_opcode_decode]

/-- From a state of the invariant a step answers, and clock calls reach its answer (R121, log 1). -/
theorem exists_stepWith_ticksWith (hc : s.coherent p) :
    ∃ t n, stepWith p s = .next t ∧ ticksWith p n s = .next t := by
  by_cases hrun : s.status = .running
  · by_cases hfa : s.phase = .fa
    · obtain ⟨t, hstep, hend⟩ := stepWith_endsIn (p := p) hrun hfa
      exact ⟨t, _, hstep, hend.ticksWith_eq⟩
    · obtain ⟨n, t, -, hend, hstep⟩ := exists_endsIn_inside hc hrun hfa
      exact ⟨t, n, hstep, hend.ticksWith_eq⟩
  · exact ⟨s, 0, stepWith_stopped hrun, rfl⟩

/-- Any number of clock calls keeps the invariant. -/
theorem ticksWith_coherent (hc : s.coherent p) (h : ticksWith p n s = .next t) : t.coherent p := by
  induction n generalizing s with
  | zero => cases h; exact hc
  | succ n ih =>
    obtain ⟨u, hu, hcu⟩ := exists_tickWith_coherent hc
    rw [ticksWith_succ hu] at h
    exact ih hcu h

/-- Settles O54: a step is some number of clock calls. -/
theorem everyStepKeepsCoherence : Obligations.EveryStepKeepsCoherence := by
  intro s s' hc h
  obtain ⟨t, n, hstep, hticks⟩ := exists_stepWith_ticksWith hc
  cases Eq.trans (Eq.symm h) hstep
  exact ticksWith_coherent hc hticks

/-- Settles O55. -/
theorem coherentStatesNeverStop : Obligations.CoherentStatesNeverStop := by
  intro p s hc
  obtain ⟨t, ht, -⟩ := exists_tickWith_coherent hc
  obtain ⟨u, -, hu, -⟩ := exists_stepWith_ticksWith hc
  exact ⟨⟨t, ht⟩, u, hu⟩

/-! ### Runs from reset -/

/-- Every reachable state satisfies the invariant. -/
theorem Reachable.coherent (h : Reachable p s) : s.coherent p := by
  induction h with
  | boot image s hload => exact (resetAndLoadAreCoherent p).2 image s hload
  | tick s s' _ htick ih => exact everyTickKeepsCoherence p s s' ih htick

/-- Settles O56: the invariant says where each end of a run stands. -/
theorem reachableStatesEndAsTheSpecSays : Obligations.ReachableStatesEndAsTheSpecSays := by
  intro p s hr
  have hc : s.coherent p := hr.coherent
  refine ⟨(coherentStatesNeverStop p s hc).1, fun hend => ?halted, fun w hstatus => ?decodeFailure,
    fun a hstatus => ?fetchOutOfRange⟩
  case halted =>
    obtain ⟨-, -, hhlt⟩ := (State.coherent_halted_iff hend).mp hc
    exact hhlt
  case decodeFailure =>
    obtain ⟨-, -, hcls, -, -, -, -, hread⟩ := (State.coherent_decodeFailure_iff hstatus).mp hc
    rw [Opcode.cls_eq_reserved_iff, field_opcode_decode] at hcls
    exact ⟨hcls.1, hcls.2, hread⟩
  case fetchOutOfRange =>
    obtain ⟨-, -, hpc, -, -, haddr⟩ := (State.coherent_fetchOutOfRange_iff hstatus).mp hc
    obtain ⟨hp, hge⟩ := (resolveAddr_eq_none p a).mp haddr
    exact ⟨hp, hpc, hge⟩

/-! ### The host's driving loop -/

/-- The loop stops by itself when the machine does not run (R122). -/
theorem drive_stopped (h : s.status ≠ .running) (n : Nat) : drive n s = .next s := by
  cases n with
  | zero => rfl
  | succ n =>
    unfold drive
    split
    · next hrun => exact absurd hrun h
    · rfl
    · rfl

/-- One round of the loop on a running machine is one clock call (R122). -/
theorem drive_succ (hrun : s.status = .running) (h : tickWith Config.oobPolicy s = .next t) (n : Nat) :
    drive (n + 1) s = drive n t := by
  simp only [drive, hrun, tick, h]

/-- The loop is repeated clock calls, which change nothing either once the machine has stopped (R112, R122). -/
theorem drive_eq_ticksWith (n : Nat) (s : State) : drive n s = ticksWith Config.oobPolicy n s := by
  induction n generalizing s with
  | zero => rfl
  | succ n ih =>
    by_cases hrun : s.status = .running
    · cases htick : tickWith Config.oobPolicy s with
      | next s' => rw [drive_succ hrun htick, ticksWith_succ htick, ih]
      | fault r => simp only [drive, hrun, tick, ticksWith, htick]
      | refused r => simp only [drive, hrun, tick, ticksWith, htick]
    · rw [drive_stopped hrun, ticksWith_stopped hrun]

/-- Settles O60. -/
theorem drivingLoopAndReadBack : Obligations.DrivingLoopAndReadBack := by
  refine ⟨drive_eq_ticksWith, fun s v => ?_⟩
  cases hs : s.status with
  | halted =>
    simp [hostResult, State.endedWell, hs, Config.resultAddr, eq_comm]
  | running | faulted => simp [hostResult, State.endedWell, hs]

end Sys2Proof.Machine
end

section
/-! PROOFS of the statements about `mov`, `add` and `cmp` (41_register_register.md): each answers the state of
its equation, read register by register. -/

namespace Sys2Proof.Machine

open Sys2Proof Host

/-! ### Registers after an instruction's pass -/

/-- A pass in any mode but compare leaves the register file (R114). -/
theorem State.runAlu_regs_of_pure {m : AluMode} (hm : m ≠ .cmp) (s : State) (a b : Word) :
    (s.runAlu m a b).regs = s.regs := by
  rw [State.runAlu_regs, aluFlags_pure hm, RegFile.write_flags_self]

/-- Every register after the counter is committed, a flag-free pass is made and a destination is written: the
destination wins over the counter (R27, R29, R111). -/
theorem State.readReg_writeReg_of_pure {m : AluMode} (hm : m ≠ .cmp) (s : State) (a b v : Word) (r q : Reg) :
    ((s.commitPc.runAlu m a b).writeReg r v).readReg q =
      if q = r then v else if q = .pc then s.pc + 1 else s.readReg q := by
  rw [State.writeReg_readReg, State.runAlu_regs_of_pure hm, RegFile.read_write, ← State.readReg_eq,
    State.commitPc_operand]

/-- Every register but the flags after the counter is committed and a pass in any mode is made (R27, R114). -/
theorem State.readReg_runAlu_of_ne_flags {q : Reg} (hq : q ≠ .flags) (s : State) (m : AluMode) (a b : Word) :
    (s.commitPc.runAlu m a b).readReg q = if q = .pc then s.pc + 1 else s.readReg q := by
  rw [State.runAlu_readReg, RegFile.read_write_ne _ _ hq, ← State.readReg_eq, State.commitPc_operand]

/-! ### The three instructions -/

/-- Settles O16: the operand is read after the counter's commit. -/
theorem movCopiesTheSecondRegister : Obligations.MovCopiesTheSecondRegister := by
  intro ra rb s
  have hval := s.commitPc_operand rb
  refine ⟨_, exec_mov ra rb s, fun q => ?regs, hval, fun _ => rfl, rfl, rfl, rfl, rfl, rfl⟩
  case regs => rw [State.toPhase_readReg, State.readReg_writeReg_of_pure (m := .nop) nofun, hval]

/-- Settles O17: both operands are read after the counter's commit, and the flags are in the frame of `add`
unless they are its destination. -/
theorem addWritesTheSumAndNoFlag : Obligations.AddWritesTheSumAndNoFlag := by
  intro ra rb s
  have hexec := exec_add ra rb s
  refine ⟨_, s.commitPc.readReg ra + s.commitPc.readReg rb, hexec, ?sum, fun q => ?regs, rfl,
    fun hra => ?flags, fun _ => rfl, rfl, rfl, rfl, rfl, rfl⟩
  case sum => rw [BitVec.toNat_add, s.commitPc_operand ra, s.commitPc_operand rb]
  case regs => exact State.readReg_writeReg_of_pure (m := .add) nofun ..
  case flags =>
    have hflags := exec_readReg_frame (q := .flags) hexec nofun (mt Option.some.inj hra) nofun
    exact ⟨congrArg negFlag hflags, congrArg zeroFlag hflags⟩

/-- Settles O18: `Z` and `N` are those of a compare of the operands, and the registers beside the flags are
those after the counter's commit. -/
theorem cmpWritesOnlyTheFlags : Obligations.CmpWritesOnlyTheFlags := by
  intro ra rb s
  have hexec := exec_cmp ra rb s
  obtain ⟨hz, -⟩ := compareAloneWritesTheTwoFlags (s.commitPc.readReg ra) (s.commitPc.readReg rb) s.regs.flags
  exact ⟨_, s.commitPc.readReg ra, s.commitPc.readReg rb, s.commitPc.readReg ra - s.commitPc.readReg rb, hexec,
    s.commitPc_operand ra, s.commitPc_operand rb, toNat_sub_eq_emod _ _, hz, negFlag_compareFlags _ _,
    fun _ hi => exec_cmp_low_flags hexec rfl hi, fun _ hq => State.readReg_runAlu_of_ne_flags hq ..,
    rfl, fun _ => rfl, rfl, rfl, rfl, rfl, rfl⟩

end Sys2Proof.Machine
end

section
/-! PROOFS of the statements about `ldl` and `ldh` (42_immediate_load.md): both OR a constant into their
destination, and they differ only in where the byte stands in that constant. -/

namespace Sys2Proof.Machine

open Sys2Proof Host

/-! ### The two constants, bit by bit -/

/-- The constant of `ldl` has the byte's bits at 7:0 and no other (R81). -/
theorem getLsbD_zext16 (imm : Byte) (i : Nat) :
    (zext16 imm).getLsbD i = (decide (i < 8) && imm.getLsbD i) := by
  rw [zext16, BitVec.getLsbD_setWidth]
  by_cases hi : i < 8
  · rw [decide_eq_true hi, decide_eq_true (show i < 16 by omega)]
  · rw [BitVec.getLsbD_of_ge imm i (Nat.le_of_not_lt hi), Bool.and_false, Bool.and_false]

/-- The constant of `ldh` has the byte's bits at 15:8 and no other (R81). -/
theorem getLsbD_immHigh (imm : Byte) {i : Nat} (hi : i < 16) :
    (immHigh imm).getLsbD i = (decide (8 ≤ i) && imm.getLsbD (i - 8)) := by
  rw [immHigh, BitVec.getLsbD_shiftLeft, getLsbD_zext16, decide_eq_true hi,
    decide_eq_true (show i - 8 < 8 by omega), Bool.true_and, Bool.true_and, ← decide_not]
  simp only [Nat.not_lt]

/-- The two constants together are the 16-bit constant whose bytes they hold (R152). -/
theorem immHigh_or_zext16 (hi lo : Byte) : immHigh hi ||| zext16 lo = hi ++ lo := by
  have hsplit := BitVec.setWidth_append_eq_shiftLeft_setWidth_or (b := hi) (b' := lo) (w'' := 16)
  exact hsplit.symm.trans (BitVec.setWidth_eq _)

/-! ### The state both instructions answer -/

/-- The counter is committed, the constant `v` passes the ALU, and `v` is ORed into `ra` (R150, R151). -/
def State.orImmediate (s : State) (ra : Reg) (v : Word) : State :=
  ((s.commitPc.runAlu .nop v 0).writeReg ra (s.commitPc.readReg ra ||| v)).toPhase .fa

theorem exec_ldl_eq_orImmediate (ra : Reg) (imm : Byte) (s : State) :
    exec (.ldl ra imm) s = .next (s.orImmediate ra (zext16 imm)) := exec_ldl ra imm s

theorem exec_ldh_eq_orImmediate (ra : Reg) (imm : Byte) (s : State) :
    exec (.ldh ra imm) s = .next (s.orImmediate ra (immHigh imm)) := exec_ldh ra imm s

/-- Every register afterwards: the destination wins over the counter (R27, R29, R111). -/
theorem State.orImmediate_readReg (s : State) (ra : Reg) (v : Word) (q : Reg) :
    (s.orImmediate ra v).readReg q =
      if q = ra then s.commitPc.readReg ra ||| v else if q = .pc then s.pc + 1 else s.readReg q := by
  rw [State.orImmediate, State.toPhase_readReg, State.readReg_writeReg_of_pure (m := .nop) nofun]

theorem State.orImmediate_readReg_same (s : State) (ra : Reg) (v : Word) :
    (s.orImmediate ra v).readReg ra = (if ra = .pc then s.pc + 1 else s.readReg ra) ||| v := by
  rw [State.orImmediate_readReg, if_pos rfl, State.commitPc_operand]

theorem State.orImmediate_readReg_of_ne {ra q : Reg} (hq : q ≠ ra) (s : State) (v : Word) :
    (s.orImmediate ra v).readReg q = if q = .pc then s.pc + 1 else s.readReg q := by
  rw [State.orImmediate_readReg, if_neg hq]

/-- Two constants ORed in one after the other, in a register that the counter's commit leaves alone (R152). -/
theorem State.orImmediate_orImmediate_readReg {ra : Reg} (hra : ra ≠ .pc) (s : State) (v w : Word) :
    ((s.orImmediate ra v).orImmediate ra w).readReg ra = s.readReg ra ||| (v ||| w) := by
  rw [State.orImmediate_readReg_same, State.orImmediate_readReg_same, if_neg hra, if_neg hra,
    BitVec.or_assoc]

/-- A flag bit that is 0 in the constant is kept, also where the flags are the destination. -/
theorem State.orImmediate_flag_bit {v : Word} {i : Nat} (hv : v.getLsbD i = false) (s : State) (ra : Reg) :
    ((s.orImmediate ra v).readReg .flags).getLsbD i = (s.readReg .flags).getLsbD i := by
  by_cases hra : ra = .flags
  · subst hra
    rw [State.orImmediate_readReg_same, if_neg nofun, BitVec.getLsbD_or, hv, Bool.or_false]
  · rw [State.orImmediate_readReg_of_ne (Ne.symm hra), if_neg nofun]

/-! ### The two instructions -/

/-- Settles O19: `N` and `Z` are bits 15 and 14, where the constant of `ldl` is 0. -/
theorem ldlOrsTheLowByte : Obligations.LdlOrsTheLowByte := by
  intro ra imm s
  have hkept {i : Nat} (hi : 8 ≤ i) : (zext16 imm).getLsbD i = false := by
    rw [getLsbD_zext16, decide_eq_false (Nat.not_lt.mpr hi), Bool.false_and]
  refine ⟨_, exec_ldl_eq_orImmediate ra imm s, fun i _ => ?bits,
    fun q hq => State.orImmediate_readReg_of_ne hq s _, zext16_toNat imm,
    State.orImmediate_flag_bit (hkept (by decide)) s ra, State.orImmediate_flag_bit (hkept (by decide)) s ra,
    fun _ => rfl, rfl, rfl, rfl, rfl, rfl⟩
  case bits => rw [State.orImmediate_readReg_same, BitVec.getLsbD_or, getLsbD_zext16]

/-- Settles O20: the flags are in the frame of `ldh` unless they are its destination. -/
theorem ldhOrsTheHighByte : Obligations.LdhOrsTheHighByte := by
  intro ra imm s
  refine ⟨_, exec_ldh_eq_orImmediate ra imm s, fun i hi => ?bits,
    fun q hq => State.orImmediate_readReg_of_ne hq s _, immHigh_toNat imm, fun hra => ?flags,
    fun _ => rfl, rfl, rfl, rfl, rfl, rfl⟩
  case bits => rw [State.orImmediate_readReg_same, BitVec.getLsbD_or, getLsbD_immHigh imm hi]
  case flags =>
    have hflags : (s.orImmediate ra (immHigh imm)).readReg .flags = s.readReg .flags :=
      State.orImmediate_readReg_of_ne hra.symm s _
    exact ⟨congrArg negFlag hflags, congrArg zeroFlag hflags⟩

/-- Settles O21: either order ORs both constants in, and OR is commutative. -/
theorem splitLoadsCommute : Obligations.SplitLoadsCommute := by
  intro ra lo hi s hra
  have hlowFirst : ((s.orImmediate ra (zext16 lo)).orImmediate ra (immHigh hi)).readReg ra =
      s.readReg ra ||| (hi ++ lo) := by
    rw [State.orImmediate_orImmediate_readReg hra, BitVec.or_comm (zext16 lo), immHigh_or_zext16]
  have hhighFirst : ((s.orImmediate ra (immHigh hi)).orImmediate ra (zext16 lo)).readReg ra =
      s.readReg ra ||| (hi ++ lo) := by
    rw [State.orImmediate_orImmediate_readReg hra, immHigh_or_zext16]
  refine ⟨_, _, _, _, exec_ldl_eq_orImmediate .., exec_ldh_eq_orImmediate .., exec_ldh_eq_orImmediate ..,
    exec_ldl_eq_orImmediate .., hlowFirst, hhighFirst, fun hzero => ?constant⟩
  case constant =>
    rw [hlowFirst, show s.readReg ra = 0#16 from hzero, BitVec.zero_or]
    exact toNat_append_eq_add hi lo

end Sys2Proof.Machine
end

section
/-! PROOFS of the statements about `je` and `jmp` (43_jumps.md): both pass their target through the ALU, and they
differ only in the counter they leave. -/

namespace Sys2Proof.Machine

open Sys2Proof Host

/-! ### The state both jumps answer -/

/-- The counter is committed, the target passes the ALU into `T`, and the counter becomes `next` (R160, R161). -/
def State.jumped (s : State) (target next : Word) : State :=
  ((s.commitPc.runAlu .nop target 0).writeReg .pc next).toPhase .fa

theorem exec_jmp_eq_jumped (addr : Byte) (s : State) :
    exec (.jmp addr) s = .next (s.jumped (zext16 addr) (zext16 addr)) := exec_jmp addr s

/-- A `je` that is not taken leaves the counter of the commit, so writing that value once more changes nothing. -/
theorem exec_je_eq_jumped (addr : Byte) (s : State) :
    exec (.je addr) s = .next (s.jumped (zext16 addr) (if s.z = true then zext16 addr else s.pc + 1)) := by
  rw [exec_je]
  by_cases hz : s.z = true
  · rw [if_pos hz, if_pos hz, State.jumped]
  · rw [if_neg hz, if_neg hz]
    rfl

theorem State.jumped_pc (s : State) (target next : Word) : (s.jumped target next).pc = next := rfl

/-- The pass writes no flag, so the counter is the only register a jump can change. -/
theorem State.jumped_readReg_of_ne {q : Reg} (hq : q ≠ .pc) (s : State) (target next : Word) :
    (s.jumped target next).readReg q = s.readReg q := by
  rw [State.jumped, State.toPhase_readReg, State.readReg_writeReg_of_pure (m := .nop) nofun, if_neg hq,
    if_neg hq]

/-- Everything a jump to `addr` does beside setting the counter, taken or not (R160, R161). -/
theorem State.jumped_frame (s : State) (addr : Byte) {next : Word} {t : State}
    (ht : t = s.jumped (zext16 addr) next) :
    (∀ q, q ≠ .pc → t.readReg q = s.readReg q) ∧ t.t.toNat = addr.toNat ∧
      (∀ a, t.mem.readWord a = s.mem.readWord a) ∧
      t.ir = s.ir ∧ t.mar = s.mar ∧ t.mdr = s.mdr ∧ t.phase = .fa ∧ t.status = s.status := by
  subst ht
  exact ⟨fun _ hq => State.jumped_readReg_of_ne hq .., zext16_toNat addr, fun _ => rfl, rfl, rfl, rfl, rfl, rfl⟩

/-! ### The two instructions -/

/-- Settles O22: the zero flag chooses between the target and the counter of the commit. -/
theorem jeFollowsTheZeroFlag : Obligations.JeFollowsTheZeroFlag := by
  intro addr s
  refine ⟨_, exec_je_eq_jumped addr s, fun hz => ?taken, fun hz => ?notTaken, s.jumped_frame addr rfl⟩
  case taken => rw [State.jumped_pc, if_pos hz, zext16_toNat]
  case notTaken => rw [State.jumped_pc, hz, if_neg Bool.false_ne_true]

/-- Settles O23: the target overwrites the counter of the commit. -/
theorem jmpSetsTheProgramCounter : Obligations.JmpSetsTheProgramCounter := fun addr s =>
  ⟨_, exec_jmp_eq_jumped addr s, zext16_toNat addr, s.jumped_frame addr rfl⟩

end Sys2Proof.Machine
end

section
/-! PROOFS of the statements about `ld` and `st` (44_load_store.md): each answers the state of its equation, since
the address it presents always exists (R172). -/

namespace Sys2Proof.Machine

open Sys2Proof Host

/-! ### Registers after a latch, a pass and a write -/

/-- Everything a register write of a state does to its registers (R12, R20). -/
theorem State.readReg_writeReg (s : State) (r : Reg) (v : Word) (q : Reg) :
    (s.writeReg r v).readReg q = if q = r then v else s.readReg q := RegFile.read_write ..

/-- A pass in any mode but compare changes no register (R114). -/
theorem State.readReg_runAlu_of_pure {m : AluMode} (hm : m ≠ .cmp) (s : State) (a b : Word) (q : Reg) :
    (s.runAlu m a b).readReg q = s.readReg q := congrArg (·.read q) (State.runAlu_regs_of_pure hm s a b)

/-! ### The two instructions -/

/-- Settles O24: the destination wins over the counter of the commit, and the latches hold no register. -/
theorem ldLoadsTheWord : Obligations.LdLoadsTheWord := by
  intro ra addr s
  refine ⟨_, exec_ld ra addr s, fun q => ?regs, fun _ => rfl, rfl, rfl, zext16_toNat addr, rfl, rfl, rfl⟩
  case regs =>
    rw [State.toPhase_readReg, State.readReg_writeReg, State.readReg_runAlu_of_pure (m := .nop) nofun,
      State.setMdr_readReg, State.setMar_readReg, State.commitPc_operand]

/-- Settles O25: the value is read after the counter's commit, and every other word is in the frame of a store. -/
theorem stStoresTheWord : Obligations.StStoresTheWord := by
  intro ra addr s
  have hexec := exec_st ra addr s
  have hval := s.commitPc_operand ra
  obtain ⟨-, hframe⟩ := onlyStoresChangeMemory _ _ _ hexec
  refine ⟨_, hexec, fun d hd => ⟨?stored, fun a => hframe d a hd⟩, rfl, fun q => ?regs, hval,
    zext16_toNat addr, rfl, rfl, rfl, rfl⟩
  case stored =>
    obtain rfl : zext16 addr = d := Option.some.inj hd
    rw [State.toPhase_mem, State.setMem_mem, zext16_toNat, Memory.readWord_writeWord, if_pos rfl, hval]
  case regs =>
    rw [State.toPhase_readReg, State.setMem_readReg, State.readReg_runAlu_of_pure (m := .nop) nofun,
      State.setMar_readReg, State.commitPc_operand]

end Sys2Proof.Machine
end

section
/-! PROOF of the statement about `hlt` (45_halt.md): the counter's commit is all it does to registers, memory and
latches, and the cycle stays in Execute (C2, D10, log 14). -/

namespace Sys2Proof.Machine

open Sys2Proof Host

/-- Settles O26: `hlt` has no destination, so by the frame of a meaning the commit changes the counter alone. -/
theorem hltHalts : Obligations.HltHalts := by
  intro s
  have hexec := exec_hlt s
  refine ⟨_, hexec, State.halt_status _, rfl, ?counter, fun q hq => ?registers, fun _ => rfl, rfl, rfl, rfl, rfl⟩
  case counter => exact RegFile.write_pc_pc s.regs (s.pc + 1)
  case registers => exact exec_readReg_frame hexec hq nofun nofun

end Sys2Proof.Machine
end

section
/-! PROOFS of the statements about the two core faults (60_exceptions.md): the step that takes each one, and the
state it leaves. -/

namespace Sys2Proof.Machine

open Sys2Proof Host

/-- A running machine at a boundary whose counter names no word takes the fetch fault (R54, R186; D7, log 4). -/
theorem step_of_pc_ge {s : State} (hrun : s.status = .running) (hfa : s.phase = .fa)
    (hpc : Config.memWords ≤ s.pc.toNat) : step s = .next (s.fetchFault s.pc) := by
  have haddr : resolveAddr Config.oobPolicy s.pc = none := (resolveAddr_eq_none _ _).mpr ⟨rfl, hpc⟩
  have hread : memRead Config.oobPolicy s.mem s.pc = none := (memRead_eq_none _ _ _).mpr haddr
  exact (stepWith_fa hrun hfa).trans (instrStep_none hread)

/-- A running machine at a boundary whose counter names a reserved word fetches it and fails to decode it; the
fault carries the word as it stands in memory (R82, R103, R185; D9, log 2). -/
theorem step_of_reserved {s : State} (hrun : s.status = .running) (hfa : s.phase = .fa)
    (hpc : s.pc.toNat < Config.memWords) {w : Word} (hw : s.mem.readWord s.pc.toNat = w)
    (hcls : (decode w).opcode.cls = .reserved) :
    step s = .next ((s.fetched s.pc w).decodeFailure w) := by
  rw [step_of_pc_lt hrun hfa hpc, hw, exec_reserved hcls, encode_decode_of_reserved hcls]

/-- Settles O35: the fetch fault writes latches only beside the status and the phase. -/
theorem fetchOutOfRangeFaults : Obligations.FetchOutOfRangeFaults := by
  intro s hrun hfa hpc
  exact ⟨_, step_of_pc_ge hrun hfa hpc, s.fetchFault_status s.pc, s.fetchFault_readReg s.pc, fun _ => rfl,
    rfl, rfl, rfl, rfl, rfl⟩

/-- Settles O36: a word of opcode 2 to 7 is reserved, and the failure to decode it keeps what the fetch
latched. -/
theorem decodeFailureStateAfterAStep : Obligations.DecodeFailureStateAfterAStep := by
  intro s hrun hfa hpc hlo hhi
  have hcls : (decode (s.mem.readWord s.pc.toNat)).opcode.cls = .reserved := by
    rw [Opcode.cls_eq_reserved_iff, field_opcode_decode]
    exact ⟨hlo, hhi⟩
  exact ⟨_, step_of_reserved hrun hfa hpc rfl hcls, State.decodeFailure_status _ _, fun _ => rfl, fun _ => rfl,
    rfl, rfl, rfl, rfl, rfl⟩

end Sys2Proof.Machine
end
